-- ==== Sys2Proof/Word.lean ====
section
/-! DEFINITION. The word types of the Machine Core: a byte, a 9-bit address, a 16-bit product. -/

namespace Sys2Proof

/-- A memory cell, a register or an instruction byte: 8 bits, unsigned (00_scope.md R8, R9). -/
abbrev Byte := BitVec 8

/-- The program counter and every address a port or an error names: 9 bits, 0..511
(00_scope.md R11, 20_memory.md R51). -/
abbrev Addr := BitVec 9

/-- A product of two register values: 16 bits, 0..65025 (10_state.md R35, 42_alu.md R130). -/
abbrev Product := BitVec 16

end Sys2Proof
end

