-- ==== Sys2Proof/Machine/Flags.lean ====
section
/-! DEFINITION. All the arithmetic the core performs beside the PC advance (42_alu.md R136). The
core has no flags (10_state.md R33): no function here computes one, and a carry out is lost. -/

namespace Sys2Proof.Machine

/-- `ALU_MUL(x, y)`: the exact unsigned product, 16 bits (42_alu.md R130). -/
def aluMul (x y : Byte) : Product := BitVec.ofNat 16 (x.toNat * y.toNat)

/-- `ALU_ADD(x, y)`: the unsigned sum mod 256 (42_alu.md R130). -/
def aluAdd (x y : Byte) : Byte := BitVec.ofNat 8 (x.toNat + y.toNat)

/-- `SP_DEC(s)`: (s - 1) mod 256 (43_stack.md R145). -/
def spDec (sp : Byte) : Byte := sp - 1#8

/-- `SP_INC(s)`: (s + 1) mod 256 (43_stack.md R145). -/
def spInc (sp : Byte) : Byte := sp + 1#8

end Sys2Proof.Machine
end

