-- ==== Sys2Proof/Config.lean ====
section
/-! DEFINITION. What the design fixes and the three parameters the spec leaves OPEN
(93_implementation_defined.md section 5). MEM_SIZE, the fourth, stands in State (log 1). -/

namespace Sys2Proof

/-- The last address of the reference core: `MEM_SIZE` = 255, so addresses 0..254
(00_scope.md R10). -/
def Config.referenceLastAddr : Fin 256 := 254

/-- `ALU_OP_ADD`: the numeric code by which a host names the ALU selector ADD.
OPEN in the spec (42_alu.md R135); nothing in Lean knows its value (log 6). -/
opaque Config.aluOpAdd : Nat

/-- `TRACE_FORMAT`: the text of a trace line, from PC, the three bytes (none = ABSENT) and R0..R7.
OPEN in the spec (40_dispatch.md R109); host only (log 7). -/
opaque Config.traceFormat : Addr → Vector (Option Byte) 3 → Vector Byte 8 → String

/-- `EXIT_CODE_FAILED`: the process exit code of a failed run.
OPEN in the spec (60_exceptions.md R175); host only (log 8). -/
opaque Config.exitCodeFailed : Nat

end Sys2Proof
end

