-- ==== Sys2Proof/Syntax.lean ====
section
/-! DEFINITION. The instructions: one constructor per row of spec/opcode_table.json
(30_encoding.md R80). An operand is the whole byte the encoding holds (R76, R78). -/

namespace Sys2Proof

/-- An instruction with its operand bytes. A register operand is any byte: an index 8..255 is
encodable, and raises InvalidRegister when the instruction executes (30_encoding.md R78). -/
inductive Instr where
  /-- LOAD_IMMEDIATE, `LDI Rr, v` (41_load_print.md R120). -/
  | ldi (r v : Byte)
  /-- PRINT_REGISTER, `PRN Rr` (41_load_print.md R122). -/
  | prn (r : Byte)
  /-- HALT, `HLT` (40_dispatch.md R101). -/
  | hlt
  /-- MULTIPLY, `MUL Ra, Rb` (42_alu.md R131). -/
  | mul (a b : Byte)
  /-- `PUSH Rr` (43_stack.md R146). -/
  | push (r : Byte)
  /-- `POP Rr` (43_stack.md R147). -/
  | pop (r : Byte)
deriving DecidableEq, Repr

/-- The number of bytes of an instruction: 1 + its operand count (30_encoding.md R77, R80). -/
def Instr.length : Instr → Nat
  | .ldi _ _ => 3
  | .prn _ => 2
  | .hlt => 1
  | .mul _ _ => 3
  | .push _ => 2
  | .pop _ => 2

end Sys2Proof
end

