-- ==== Sys2Proof/Machine/State.lean ====
section
/-! DEFINITION. The architectural state of the core (10_state.md R20), its errors, and the state
after reset (R42 to R47, 70_reset_and_hazards.md R180). -/

namespace Sys2Proof.Machine

/-- The run state (10_state.md R31). -/
inductive Status where
  | running
  | halted
  | haltedUnknownOpcode
  | failedOutOfBounds
  | failedInvalidRegister
  | failedUnsupportedOperation
deriving DecidableEq, Repr

/-- An ALU operation selector: ADD, or any other, told apart by a number (42_alu.md R135). -/
inductive AluOp where
  | add
  | other (code : Nat)
deriving DecidableEq, Repr

/-- The detail of the last stop (10_state.md R32). -/
inductive FaultInfo where
  /-- After reset, and after HALTED. -/
  | none
  /-- The address that was out of bounds. -/
  | addr (a : Addr)
  /-- The register index that was out of range. -/
  | reg (i : Byte)
  /-- The unassigned byte fetched. -/
  | opcode (b : Byte)
  /-- The unsupported ALU selector. -/
  | op (o : AluOp)
deriving DecidableEq, Repr

/-- An output event (10_state.md R35). -/
inductive OutEvent where
  /-- `Print(v)`, appended by PRN. -/
  | print (v : Byte)
  /-- `MulResult(p)`, appended by MUL. -/
  | mulResult (p : Product)
deriving DecidableEq, Repr

/-- The core-level errors (60_exceptions.md R160). An operation raises one; the step or the `alu`
port that raised it TAKES it (`State.takeError`), so no step of this model answers with a fault.
A port reply carries one, and `runOutcome` answers with one for the end of a failed run. -/
inductive Fault where
  /-- OutOfBounds(a): raised by a memory access at or above MEM_SIZE (20_memory.md R51, R52), by the
  opcode and operand fetches, PUSH, POP, and the memory ports. Safe: the spec names the error and
  the state it leaves (60_exceptions.md R161, R162). -/
  | outOfBounds (a : Addr)
  /-- InvalidRegister(i): raised by the register check for an index above 7 (10_state.md R23), in
  LDI, PRN, MUL, PUSH, POP and the register and `alu` ports. Safe, as above. -/
  | invalidRegister (i : Byte)
  /-- UnsupportedOperation(op): raised by the `alu` port alone, for a selector other than ADD
  (42_alu.md R134). Safe, as above. -/
  | unsupportedOperation (o : AluOp)
deriving DecidableEq, Repr

/-- Why an instruction has no meaning in the model. -/
inductive Refusal where
  /-- Raised by an arm of `exec` whose instruction has no meaning yet; every instruction of this
  table has one, so no arm raises it. Safe: the machine stops. -/
  | notModelled (mnemonic : String)
deriving DecidableEq, Repr

/-- Memory as the list of its non-zero cells, addresses strictly rising. An address that is not
listed reads `Memory.unlisted`. -/
abbrev Memory := List Host.Cell

/-- The whole state of one core (10_state.md R20), and the size it was built with (log 1). -/
structure State where
  /-- MEM_SIZE - 1, the last address: a parameter of the core, never written (00_scope.md R10). -/
  lastAddr : Fin 256
  /-- R0..R7; R7 is the stack pointer (10_state.md R21, R24). -/
  regs : Vector Byte 8
  /-- PC, the address of the next opcode byte (10_state.md R27). -/
  pc : Addr
  /-- M, the one memory array (20_memory.md R50). -/
  mem : Memory
  /-- STATUS (10_state.md R31). -/
  status : Status
  /-- FAULT_INFO (10_state.md R32). -/
  faultInfo : FaultInfo
  /-- OUT, oldest event first (10_state.md R35). -/
  out : List OutEvent
deriving DecidableEq, Repr

/-- A core of the given size right after reset (70_reset_and_hazards.md R180). -/
def State.resetAt (lastAddr : Fin 256) : State where
  lastAddr := lastAddr
  regs := Vector.replicate 8 0#8
  pc := 0#9
  mem := []
  status := .running
  faultInfo := .none
  out := []

/-- The reference core, MEM_SIZE = 255, right after reset (00_scope.md R10, log 1). -/
def State.reset : State := State.resetAt Config.referenceLastAddr

/-- How an instruction or a step ends. -/
abbrev StepResult := Host.Outcome State Fault Refusal

end Sys2Proof.Machine
end

