-- ==== Sys2Proof/Machine/Ops.lean ====
section
/-! DEFINITION. The shared operations: memory, registers, the output channel, the program counter,
taking an error, halting, and committing an instruction. -/

namespace Sys2Proof.Machine

/-- What an address that memory does not list reads as: the reset contents (10_state.md R43). -/
def Memory.unlisted : Byte := 0#8

/-- The canonical form: addresses strictly rising, no listed cell equal to `Memory.unlisted`. -/
def Memory.wf (m : Memory) : Bool :=
  decide (m.Pairwise fun c d => c.1 < d.1) && m.all fun c => c.2 != Memory.unlisted

/-- Cell `a` of the array, without a bounds check. -/
def Memory.read (m : Memory) (a : Nat) : Byte := (m.lookup a).getD Memory.unlisted

/-- List cell `a` with value `v`, in address order. -/
def Memory.insert (a : Nat) (v : Byte) : Memory → Memory
  | [] => [(a, v)]
  | c :: m =>
    if a < c.1 then (a, v) :: c :: m
    else if a = c.1 then (a, v) :: m
    else c :: Memory.insert a v m

/-- Write cell `a`, without a bounds check, keeping the canonical form. -/
def Memory.write (m : Memory) (a : Nat) (v : Byte) : Memory :=
  if v = Memory.unlisted then m.filter fun c => c.1 != a else Memory.insert a v m

/-- `MEM_SIZE`, in 1..256 (00_scope.md R10). -/
def State.memSize (s : State) : Nat := s.lastAddr.val + 1

/-- `MemRead(a, 1)` (20_memory.md R51). -/
def State.memRead (s : State) (a : Addr) : Except Fault Byte :=
  if a.toNat < s.memSize then .ok (s.mem.read a.toNat) else .error (.outOfBounds a)

/-- `MemWrite(a, 1, v)` (20_memory.md R52). -/
def State.memWrite (s : State) (a : Addr) (v : Byte) : Except Fault State :=
  if a.toNat < s.memSize then .ok { s with mem := s.mem.write a.toNat v }
  else .error (.outOfBounds a)

/-- `R[i]`. -/
def State.getReg (s : State) (i : Fin 8) : Byte := s.regs[i]

/-- `R[i] <- v`. No register is hardwired (10_state.md R22). -/
def State.setReg (s : State) (i : Fin 8) (v : Byte) : State :=
  { s with regs := s.regs.set i v }

/-- `emit(e)`: append one event to the output channel (10_state.md R35). -/
def State.emit (s : State) (e : OutEvent) : State := { s with out := s.out ++ [e] }

/-- `PC <- PC + n`, the advance over an instruction of `n` bytes (10_state.md R28, 40_dispatch.md
R96). In every state with PC <= MEM_SIZE the sum does not wrap (R29; log 4). -/
def State.advance (s : State) (n : Nat) : State := { s with pc := s.pc + BitVec.ofNat 9 n }

/-- The status an error leaves (60_exceptions.md R160). -/
def Fault.status : Fault → Status
  | .outOfBounds _ => .failedOutOfBounds
  | .invalidRegister _ => .failedInvalidRegister
  | .unsupportedOperation _ => .failedUnsupportedOperation

/-- The detail an error leaves (10_state.md R32, 60_exceptions.md R160). -/
def Fault.info : Fault → FaultInfo
  | .outOfBounds a => .addr a
  | .invalidRegister i => .reg i
  | .unsupportedOperation o => .op o

/-- Taking an error: STATUS and FAULT_INFO are written and nothing else is (60_exceptions.md R162).
No register saves PC or STATUS, no handler runs and the mode does not change (R163). There is no
return from an error (R166): only reset leaves the stopped state. -/
def State.takeError (s : State) (e : Fault) : State :=
  { s with status := e.status, faultInfo := e.info }

/-- HLT's stop (40_dispatch.md R101). -/
def State.halt (s : State) : State := { s with status := .halted, faultInfo := .none }

/-- The stop at an unassigned opcode byte (40_dispatch.md R102). -/
def State.haltUnknown (s : State) (b : Byte) : State :=
  { s with status := .haltedUnknownOpcode, faultInfo := .opcode b }

/-- The end of an instruction of `len` bytes started in `s`: its collected writes are committed and
PC advances, or it raised an error and they are discarded (40_dispatch.md R95, R97). -/
def State.commit (s : State) (len : Nat) (writes : Except Fault State) : StepResult :=
  match writes with
  | .ok t => .next (t.advance len)
  | .error e => .next (s.takeError e)

end Sys2Proof.Machine
end

