-- ==== Sys2Proof/Machine/Operands.lean ====
section
/-! DEFINITION. The operand forms: a register index byte, checked (10_state.md R23), and the
stack address held in R7 (R24). An immediate is its byte unchanged (30_encoding.md R79). -/

namespace Sys2Proof.Machine

/-- `CheckReg(i)`: the register an index byte names, or InvalidRegister. The index is not masked,
wrapped or clamped (10_state.md R23). -/
def checkReg (i : Byte) : Except Fault (Fin 8) :=
  if h : i.toNat < 8 then .ok ⟨i.toNat, h⟩ else .error (.invalidRegister i)

/-- The index of the stack pointer, R7 (10_state.md R24). -/
def spIndex : Fin 8 := 7

/-- The stack pointer's value. -/
def State.sp (s : State) : Byte := s.getReg spIndex

/-- The memory address a stack pointer value is (10_state.md R24), widened to 9 bits. -/
def stackAddr (sp : Byte) : Addr := sp.setWidth 9

end Sys2Proof.Machine
end

