-- ==== Sys2Proof/Machine/Alu.lean ====
section
/-! DEFINITION. MUL (42_alu.md R131) and the operation behind the `alu` port (R134). -/

namespace Sys2Proof.Machine

/-- MUL: append `MulResult(R[a] * R[b])` to OUT; no register is written (42_alu.md R131, R133). -/
def execMul (a b : Byte) (s : State) : StepResult :=
  s.commit 3 do
    let i ← checkReg a
    let j ← checkReg b
    return s.emit (.mulResult (aluMul (s.getReg i) (s.getReg j)))

/-- The generic ALU operation: the selector is tested first, then `a`, then `b`; ADD writes
`R[a] <- R[a] + R[b]` mod 256 (42_alu.md R134). -/
def aluOperation (o : AluOp) (a b : Byte) (s : State) : Except Fault State :=
  match o with
  | .other code => .error (.unsupportedOperation (.other code))
  | .add => do
    let i ← checkReg a
    let j ← checkReg b
    return s.setReg i (aluAdd (s.getReg i) (s.getReg j))

/-- The selector a numeric code names: ADD for the one code `ALU_OP_ADD`, and otherwise another
selector (42_alu.md R135; log 6). -/
def AluOp.ofCode (code : Nat) : AluOp :=
  if code = Config.aluOpAdd then .add else .other code

end Sys2Proof.Machine
end

