-- ==== Sys2Proof/Machine/Control.lean ====
section
/-! DEFINITION. HLT (40_dispatch.md R101). The stop at an unassigned byte is not an instruction's:
`State.haltUnknown` of Ops, which the step calls. -/

namespace Sys2Proof.Machine

/-- HLT: the core stops with STATUS HALTED; PC is left at the instruction (40_dispatch.md R101). -/
def execHlt (s : State) : StepResult := .next s.halt

end Sys2Proof.Machine
end

