-- ==== Sys2Proof/Machine/LoadPrint.lean ====
section
/-! DEFINITION. LDI and PRN (41_load_print.md). -/

namespace Sys2Proof.Machine

/-- LDI: `R[r] <- v` (41_load_print.md R120). -/
def execLdi (r v : Byte) (s : State) : StepResult :=
  s.commit 3 do
    let i ← checkReg r
    return s.setReg i v

/-- PRN: append `Print(R[r])` to OUT (41_load_print.md R122). -/
def execPrn (r : Byte) (s : State) : StepResult :=
  s.commit 2 do
    let i ← checkReg r
    return s.emit (.print (s.getReg i))

end Sys2Proof.Machine
end

