-- ==== Sys2Proof/Machine/Stack.lean ====
section
/-! DEFINITION. PUSH and POP (43_stack.md). -/

namespace Sys2Proof.Machine

/-- The address a PUSH stores to: the decremented stack pointer (43_stack.md R146). -/
def pushAddr (s : State) : Addr := stackAddr (spDec s.sp)

/-- The address a POP reads: the stack pointer (43_stack.md R147). -/
def popAddr (s : State) : Addr := stackAddr s.sp

/-- The value a PUSH of register `i` stores: a register read after the decrement, so R7 gives the
decremented stack pointer (43_stack.md R146). -/
def pushValue (i : Fin 8) (s : State) : Byte :=
  if i = spIndex then spDec s.sp else s.getReg i

/-- PUSH: decrement R7, store the register there (43_stack.md R146). -/
def execPush (r : Byte) (s : State) : StepResult :=
  s.commit 2 do
    let i ← checkReg r
    let t ← s.memWrite (pushAddr s) (pushValue i s)
    return t.setReg spIndex (spDec s.sp)

/-- POP: load the register from the top of the stack, then increment R7 as that write left it
(43_stack.md R147). -/
def execPop (r : Byte) (s : State) : StepResult :=
  s.commit 2 do
    let i ← checkReg r
    let v ← s.memRead (popAddr s)
    let t := s.setReg i v
    return t.setReg spIndex (spInc t.sp)

end Sys2Proof.Machine
end

