-- ==== Sys2Proof/Decode.lean ====
section
/-! DEFINITION. The decoder, total on any bytes and rejecting by name, and after it the encoder
(30_encoding.md R75 to R83). -/

namespace Sys2Proof

/-- The closed enumeration of operations behind the opcode table
(10_state.md R37, 40_dispatch.md R98). -/
inductive Opcode where
  | ldi | prn | hlt | mul | push | pop
deriving DecidableEq, Repr

/-- Why bytes are no instruction. -/
inductive Reject where
  /-- There is no byte to decode. -/
  | noOpcode
  /-- The opcode byte is one of the 250 unassigned values (30_encoding.md R82). -/
  | unassigned (b : Byte)
  /-- The bytes end before operand byte `k`, which is byte `k` of the instruction (1 or 2). -/
  | missingOperand (k : Nat)
deriving DecidableEq, Repr

/-- The opcode table, by exact match of the whole byte (30_encoding.md R80). -/
def opcodeOf (b : Byte) : Option Opcode :=
  if b = 0x82#8 then some .ldi
  else if b = 0x47#8 then some .prn
  else if b = 0x01#8 then some .hlt
  else if b = 0xA2#8 then some .mul
  else if b = 0x45#8 then some .push
  else if b = 0x46#8 then some .pop
  else none

/-- The operand count of an operation (30_encoding.md R80, column "operand bytes"). -/
def Opcode.operands : Opcode → Nat
  | .ldi => 2
  | .prn => 1
  | .hlt => 0
  | .mul => 2
  | .push => 1
  | .pop => 1

/-- Format OP_R: one operand byte (30_encoding.md R76). -/
def decodeOne (mk : Byte → Instr) : List Byte → Except Reject (Instr × List Byte)
  | r :: rest => .ok (mk r, rest)
  | [] => .error (.missingOperand 1)

/-- Formats OP_R_IMM and OP_R_R: two operand bytes (30_encoding.md R76). -/
def decodeTwo (mk : Byte → Byte → Instr) : List Byte → Except Reject (Instr × List Byte)
  | a :: b :: rest => .ok (mk a b, rest)
  | [_] => .error (.missingOperand 2)
  | [] => .error (.missingOperand 1)

/-- The operands of an operation, from the bytes after its opcode byte. -/
def decodeOperands : Opcode → List Byte → Except Reject (Instr × List Byte)
  | .ldi, bs => decodeTwo .ldi bs
  | .prn, bs => decodeOne .prn bs
  | .hlt, bs => .ok (.hlt, bs)
  | .mul, bs => decodeTwo .mul bs
  | .push, bs => decodeOne .push bs
  | .pop, bs => decodeOne .pop bs

/-- The instruction at the head of the bytes and the bytes after it, or why there is none
(30_encoding.md R75, R77, R83). -/
def decode : List Byte → Except Reject (Instr × List Byte)
  | [] => .error .noOpcode
  | op :: bs =>
    match opcodeOf op with
    | none => .error (.unassigned op)
    | some o => decodeOperands o bs

/-- The bytes of an instruction in increasing address order (30_encoding.md R76, R80, R88). -/
def encode : Instr → List Byte
  | .ldi r v => [0x82#8, r, v]
  | .prn r => [0x47#8, r]
  | .hlt => [0x01#8]
  | .mul a b => [0xA2#8, a, b]
  | .push r => [0x45#8, r]
  | .pop r => [0x46#8, r]

/-- The first three bytes of a table word of `nbits` bits: byte 0 is its bits 7..0, and every bit
above `nbits` is 0. -/
def tableBytes (nbits w : Nat) : List Byte :=
  let v := w % 2 ^ nbits
  [BitVec.ofNat 8 v, BitVec.ofNat 8 (v / 256), BitVec.ofNat 8 (v / 65536)]

/-- The instruction the decoder reads from a word numbered as spec/opcode_table.json numbers it. -/
def decodeTableWord (nbits w : Nat) : Option Instr :=
  match decode (tableBytes nbits w) with
  | .ok (i, _) => some i
  | .error _ => none

end Sys2Proof
end

