-- ==== Sys2Proof/Machine/Fetch.lean ====
section
/-! DEFINITION. Fetching an instruction's bytes (40_dispatch.md R95, 20_memory.md R54), and placing
an instruction where the next fetch finds it. -/

namespace Sys2Proof.Machine

/-- What a fetch gives. -/
inductive Fetched where
  /-- An instruction, every operand byte in bounds. -/
  | instr (i : Instr)
  /-- An unassigned opcode byte. -/
  | unassigned (b : Byte)
  /-- The fetch of the opcode or of an operand raised an error. -/
  | raised (e : Fault)
deriving DecidableEq, Repr

/-- The bytes at `a`, `a + 1`, … that are in bounds, at most `n` of them. -/
def State.bytesFrom (s : State) : Nat → Nat → List Byte
  | 0, _ => []
  | n + 1, a => if a < s.memSize then s.mem.read a :: s.bytesFrom n (a + 1) else []

/-- The bytes an instruction at PC can be made of: at most three, all in bounds. -/
def State.codeWindow (s : State) : List Byte := s.bytesFrom 3 s.pc.toNat

/-- Fetch and decode at PC. An instruction cut short by the end of memory raises OutOfBounds at its
first missing byte: PC for the opcode, PC + k for operand k (60_exceptions.md R164). A memory read
has no side effect (20_memory.md R57), so looking at bytes the instruction does not have changes
nothing (log 3). -/
def State.fetch (s : State) : Fetched :=
  match decode s.codeWindow with
  | .ok (i, _) => .instr i
  | .error .noOpcode => .raised (.outOfBounds s.pc)
  | .error (.unassigned b) => .unassigned b
  | .error (.missingOperand k) => .raised (.outOfBounds (s.pc + BitVec.ofNat 9 k))

/-- Store bytes at `a`, `a + 1`, …, leaving out those past the end of memory. -/
def State.placeBytes (s : State) : Nat → List Byte → State
  | _, [] => s
  | a, b :: bs =>
    (if a < s.memSize then { s with mem := s.mem.write a b } else s).placeBytes (a + 1) bs

/-- The bytes stand at PC and the core is running, which is all the next fetch needs. -/
def State.withCode (s : State) (bs : List Byte) : State :=
  { s.placeBytes s.pc.toNat bs with status := .running }

end Sys2Proof.Machine
end

