-- ==== Sys2Proof/Machine/Step.lean ====
section
/-! DEFINITION. One step of the core (40_dispatch.md R95). -/

namespace Sys2Proof.Machine

/-- The `step` port's body: nothing on a stopped core (40_dispatch.md R100); otherwise fetch at PC,
then take the fetch's error, halt at an unassigned byte (R102), or execute the instruction. -/
def step (s : State) : Host.Outcome State Fault Refusal :=
  if s.status = .running then
    match s.fetch with
    | .raised e => .next (s.takeError e)
    | .unassigned b => .next (s.haltUnknown b)
    | .instr i => exec i s
  else .next s

/-- The state with the instruction of a table word stored at PC, three bytes from its low bits up
(bits above `nbits` are 0), and the core running, so that the next step runs it. -/
def State.withFetchWord (s : State) (nbits w : Nat) : State := s.withCode (tableBytes nbits w)

end Sys2Proof.Machine
end

