-- ==== Sys2Proof/Machine/Ports.lean ====
section
/-! DEFINITION. The twelve ports by which the host drives the core between steps
(10_state.md R39). Each is one atomic transaction. -/

namespace Sys2Proof.Machine

/-- The numeric code of a status (10_state.md R31). -/
def Status.code : Status → BitVec 3
  | .running => 0
  | .halted => 1
  | .haltedUnknownOpcode => 2
  | .failedOutOfBounds => 3
  | .failedInvalidRegister => 4
  | .failedUnsupportedOperation => 5

/-- The result of the `trace` port: PC, the bytes at PC, PC + 1 and PC + 2 (none = ABSENT), and
R0..R7 (40_dispatch.md R108). -/
structure Trace where
  pc : Addr
  bytes : Vector (Option Byte) 3
  regs : Vector Byte 8
deriving DecidableEq, Repr

/-- A port call with its arguments (10_state.md R39). -/
inductive PortCall where
  | reset
  | load (image : List Byte)
  | memRead (a : Addr)
  | memWrite (a : Addr) (v : Byte)
  | regRead (i : Byte)
  | regWrite (i v : Byte)
  | step
  | run
  | alu (o : AluOp) (a b : Byte)
  | trace
  | status
  | out
deriving DecidableEq, Repr

/-- A port's result (10_state.md R39). -/
inductive PortReply where
  | done
  | ok
  | err (e : Fault)
  | byte (v : Byte)
  | stepped (st : Status)
  | traced (t : Trace)
  | statusInfo (st : Status) (info : FaultInfo)
  | events (es : List OutEvent)
deriving DecidableEq, Repr

/-- The state a step leaves. A step of this core always answers a next state; were it to stop in
any other way, the state would be as before. -/
def State.stepped (s : State) : State :=
  match step s with
  | .next t => t
  | .fault _ => s
  | .refused _ => s

/-- At most `n` steps, stopping when the core stops. -/
def State.runFor : Nat → State → State
  | 0, s => s
  | n + 1, s => if s.status = .running then State.runFor n s.stepped else s

/-- The number of steps within which every run ends (40_dispatch.md R103). -/
def State.runBound (s : State) : Nat := s.memSize / 2 + 1

/-- The `reset` port: the core as built, of the same size (70_reset_and_hazards.md R180). -/
def State.resetPort (s : State) : PortReply × State := (.done, State.resetAt s.lastAddr)

/-- Copy an image into memory from address `a` up. -/
def Memory.loadFrom (m : Memory) : Nat → List Byte → Memory
  | _, [] => m
  | a, b :: bs => (m.write a b).loadFrom (a + 1) bs

/-- The `load` port: the image goes to address 0 up, or is refused whole when it is larger than
memory (20_memory.md R67). -/
def State.loadPort (s : State) (image : List Byte) : PortReply × State :=
  if image.length ≤ s.memSize then (.ok, { s with mem := s.mem.loadFrom 0 image })
  else (.err (.outOfBounds (BitVec.ofNat 9 s.memSize)), s)

/-- The `mem_read` port (20_memory.md R68). -/
def State.memReadPort (s : State) (a : Addr) : PortReply × State :=
  match s.memRead a with
  | .ok v => (.byte v, s)
  | .error e => (.err e, s)

/-- The `mem_write` port (20_memory.md R68). -/
def State.memWritePort (s : State) (a : Addr) (v : Byte) : PortReply × State :=
  match s.memWrite a v with
  | .ok t => (.ok, t)
  | .error e => (.err e, s)

/-- The `reg_read` port (10_state.md R40). -/
def State.regReadPort (s : State) (i : Byte) : PortReply × State :=
  match checkReg i with
  | .ok j => (.byte (s.getReg j), s)
  | .error e => (.err e, s)

/-- The `reg_write` port (10_state.md R40). -/
def State.regWritePort (s : State) (i v : Byte) : PortReply × State :=
  match checkReg i with
  | .ok j => (.ok, s.setReg j v)
  | .error e => (.err e, s)

/-- The `step` port (40_dispatch.md R95). -/
def State.stepPort (s : State) : PortReply × State := (.stepped s.stepped.status, s.stepped)

/-- The `run` port: step while STATUS is RUNNING (40_dispatch.md R99). The bound is no limit:
every run ends within it (R103). -/
def State.runPort (s : State) : PortReply × State :=
  let t := State.runFor s.runBound s
  (.stepped t.status, t)

/-- The `alu` port: on success it writes one register; on an error it writes none and stops the
core, whatever STATUS was (42_alu.md R134). -/
def State.aluPort (s : State) (o : AluOp) (a b : Byte) : PortReply × State :=
  match aluOperation o a b s with
  | .ok t => (.ok, t)
  | .error e => (.err e, s.takeError e)

/-- Cell `a` for an inspection: none (ABSENT) past the end of memory (40_dispatch.md R108). -/
def State.inspect (s : State) (a : Nat) : Option Byte :=
  if a < s.memSize then some (s.mem.read a) else none

/-- The `trace` port: a pure read-only inspection (40_dispatch.md R108). -/
def State.tracePort (s : State) : PortReply × State :=
  let p := s.pc.toNat
  (.traced ⟨s.pc, #v[s.inspect p, s.inspect (p + 1), s.inspect (p + 2)], s.regs⟩, s)

/-- The `status` port (10_state.md R31, R34). -/
def State.statusPort (s : State) : PortReply × State := (.statusInfo s.status s.faultInfo, s)

/-- The output channel as the host sees it (10_state.md R35). -/
def State.outPort (s : State) : PortReply × State := (.events s.out, s)

/-- One port call: its result and the state after it (10_state.md R39). -/
def State.call (s : State) : PortCall → PortReply × State
  | .reset => s.resetPort
  | .load image => s.loadPort image
  | .memRead a => s.memReadPort a
  | .memWrite a v => s.memWritePort a v
  | .regRead i => s.regReadPort i
  | .regWrite i v => s.regWritePort i v
  | .step => s.stepPort
  | .run => s.runPort
  | .alu o a b => s.aluPort o a b
  | .trace => s.tracePort
  | .status => s.statusPort
  | .out => s.outPort

/-- A host session: port calls one after another (10_state.md R39, 70_reset_and_hazards.md R188). -/
def State.calls (s : State) (cs : List PortCall) : State := cs.foldl (fun t c => (t.call c).2) s

end Sys2Proof.Machine
end

