-- ==== Sys2Proof/Machine/Boundary.lean ====
section
/-! DEFINITION. The host's side of the boundary, outside the core (00_scope.md R6) but described by
numbered rules: the text of an output event, the assembly text, the program image text and the
process exit codes. No definition of the core uses this file. -/

namespace Sys2Proof.Machine

/-- The line a host prints for an event, numbers in decimal
(41_load_print.md R123, 42_alu.md R132). -/
def OutEvent.text : OutEvent → String
  | .print v => "Value = " ++ toString v.toNat
  | .mulResult p => "Multiplying operation result: " ++ toString p.toNat

/-- The text of a trace line, in the host's OPEN format (40_dispatch.md R109). -/
def Trace.text (t : Trace) : String := Config.traceFormat t.pc t.bytes t.regs

/-- One hexadecimal digit. -/
def hexDigit (n : Nat) : String :=
  if n < 10 then toString n else (["A", "B", "C", "D", "E", "F"].getD (n - 10) "?")

/-- A register operand in assembly: `R0`..`R7`, or the raw byte for an index out of range
(30_encoding.md R88). -/
def regText (r : Byte) : String :=
  if r.toNat < 8 then "R" ++ toString r.toNat
  else "0x" ++ hexDigit (r.toNat / 16) ++ hexDigit (r.toNat % 16)

/-- The assembly notation of an instruction (30_encoding.md R88). -/
def assemblyText : Instr → String
  | .ldi r v => "LDI " ++ regText r ++ ", " ++ toString v.toNat
  | .prn r => "PRN " ++ regText r
  | .hlt => "HLT"
  | .mul a b => "MUL " ++ regText a ++ ", " ++ regText b
  | .push r => "PUSH " ++ regText r
  | .pop r => "POP " ++ regText r

/-- Why a loader rejects an image line. -/
inductive ImageReject where
  /-- The token is not a base-2 literal: it has a character other than 0 and 1 (log 9). -/
  | notBinary (token : List Char)
  /-- The literal's value is above 255 (30_encoding.md R87). -/
  | aboveByte (value : Nat)
deriving DecidableEq, Repr

/-- A line less its comment, from `#` on, and less the white space around what is left
(30_encoding.md R86). -/
def lineToken (line : List Char) : List Char :=
  let code := (line.takeWhile (· ≠ '#')).dropWhile Char.isWhitespace
  (code.reverse.dropWhile Char.isWhitespace).reverse

/-- The value of a base-2 literal, most significant digit first. -/
def binaryValue (token : List Char) : Nat :=
  token.foldl (fun n c => 2 * n + (if c = '1' then 1 else 0)) 0

/-- The byte a non-empty token stands for (30_encoding.md R86, R87). -/
def tokenByte (token : List Char) : Except ImageReject Byte :=
  if token.all fun c => c = '0' ∨ c = '1' then
    let n := binaryValue token
    if n < 256 then .ok (BitVec.ofNat 8 n) else .error (.aboveByte n)
  else .error (.notBinary token)

/-- The bytes of an image's lines in file order; a line that is blank after comment-stripping gives
none (30_encoding.md R86). -/
def imageOfLines : List (List Char) → Except ImageReject (List Byte)
  | [] => .ok []
  | line :: rest =>
    match lineToken line with
    | [] => imageOfLines rest
    | token =>
      match tokenByte token, imageOfLines rest with
      | .error e, _ => .error e
      | .ok _, .error e => .error e
      | .ok b, .ok bs => .ok (b :: bs)

/-- The bytes of a program image text, for the `load` port (30_encoding.md R86). -/
def imageOfText (text : List Char) : Except ImageReject (List Byte) :=
  imageOfLines (text.splitOn '\n')

/-- How a host process ends (60_exceptions.md R175). -/
inductive HostEnd where
  /-- UsageError: the file name argument is absent. -/
  | noArgument
  /-- FileNotFound: the named file cannot be opened. -/
  | fileNotFound
  /-- A run ended with this status. -/
  | ran (final : Status)
deriving DecidableEq, Repr

/-- The process exit code; none while the core is still running (60_exceptions.md R175). -/
def exitCode : HostEnd → Option Nat
  | .noArgument => some 1
  | .fileNotFound => some 2
  | .ran .running => none
  | .ran .halted => some 0
  | .ran .haltedUnknownOpcode => some 0
  | .ran .failedOutOfBounds => some Config.exitCodeFailed
  | .ran .failedInvalidRegister => some Config.exitCodeFailed
  | .ran .failedUnsupportedOperation => some Config.exitCodeFailed

end Sys2Proof.Machine
end

