-- ==== Sys2Proof/Safety.lean ====
section
/-! DEFINITION. What a run's end means, and the invariant that every step and every port call keeps,
in the terms the claims use. -/

namespace Sys2Proof.Machine

/-- The status is one of the three failures (60_exceptions.md R160). -/
def Status.failed : Status → Bool
  | .running => false
  | .halted => false
  | .haltedUnknownOpcode => false
  | .failedOutOfBounds => true
  | .failedInvalidRegister => true
  | .failedUnsupportedOperation => true

/-- The error that stopped a failed core, from STATUS and FAULT_INFO (60_exceptions.md R160). -/
def State.failure (s : State) : Option Fault :=
  match s.status, s.faultInfo with
  | .failedOutOfBounds, .addr a => some (.outOfBounds a)
  | .failedInvalidRegister, .reg i => some (.invalidRegister i)
  | .failedUnsupportedOperation, .op o => some (.unsupportedOperation o)
  | _, _ => none

/-- What a whole run from `s` comes to: its last state, or, for a run that failed, a fault outcome.
"A model should treat it as a fault outcome, not as a final state that satisfies a postcondition"
(40_dispatch.md R104; log 2). -/
def runOutcome (s : State) : StepResult :=
  let t := State.runFor s.runBound s
  match t.failure with
  | some e => .fault e
  | none => .next t

/-- FAULT_INFO has the form that STATUS calls for (10_state.md R32, 60_exceptions.md R160), and
records something that can stop the core so. -/
def State.stopAgrees (s : State) : Bool :=
  match s.status, s.faultInfo with
  | .running, .none => true
  | .halted, .none => true
  | .haltedUnknownOpcode, .opcode b => (opcodeOf b).isNone
  | .failedOutOfBounds, .addr a => decide (s.memSize ≤ a.toNat)
  | .failedInvalidRegister, .reg i => decide (8 ≤ i.toNat)
  | .failedUnsupportedOperation, .op o => o != .add
  | _, _ => false

/-- What holds of every state a core reaches from reset. -/
structure State.Inv (s : State) : Prop where
  /-- Memory is in canonical form. -/
  memWf : s.mem.wf = true
  /-- Memory lists only cells that exist (20_memory.md R50). -/
  memInBounds : ∀ c ∈ s.mem, c.1 < s.memSize
  /-- PC is at most MEM_SIZE (10_state.md R29). -/
  pcInBounds : s.pc.toNat ≤ s.memSize
  /-- FAULT_INFO agrees with STATUS (10_state.md R32). -/
  stopAgrees : s.stopAgrees = true
  /-- A product event is a product of two bytes (10_state.md R35). -/
  productsBounded : ∀ p, OutEvent.mulResult p ∈ s.out → p.toNat ≤ 65025

end Sys2Proof.Machine
end

