-- ==== Sys2Proof/WellFormed.lean ====
section
/-! DEFINITION. Which instructions name only registers that exist. An instruction that does not is
encodable and executes: it raises InvalidRegister (30_encoding.md R78). The assembly notation
writes well-formed instructions only (R88). -/

namespace Sys2Proof

/-- A register operand names one of R0..R7 (10_state.md R21, R23). -/
def regOperandOk (r : Byte) : Bool := decide (r.toNat < 8)

/-- Every register operand of the instruction names one of R0..R7. -/
def Instr.wf : Instr → Bool
  | .ldi r _ => regOperandOk r
  | .prn r => regOperandOk r
  | .hlt => true
  | .mul a b => regOperandOk a && regOperandOk b
  | .push r => regOperandOk r
  | .pop r => regOperandOk r

end Sys2Proof
end

