-- ==== Sys2Proof/Certificates/Slice0/Obligations.lean ====
section
/-! DEFINITION. The statements for the provers, and the terms only they use: the spec's pseudocode of
a step, written out line by line, and the states that errors leave. -/

namespace Sys2Proof.Pseudocode

open Sys2Proof.Machine

/-- The state an OutOfBounds(a) leaves (60_exceptions.md R160, R162; a next state by log 2). -/
def outOfBounds (s : State) (a : Nat) : State :=
  { s with status := .failedOutOfBounds, faultInfo := .addr (BitVec.ofNat 9 a) }

/-- The state an InvalidRegister(i) leaves (60_exceptions.md R160, R162; a next state by log 2). -/
def invalidRegister (s : State) (i : Byte) : State :=
  { s with status := .failedInvalidRegister, faultInfo := .reg i }

/-- `MemRead(a, 1)` and what follows it; the address is a number, so nothing wraps
(20_memory.md R51). -/
def withRead (s : State) (a : Nat) (next : Byte → State) : State :=
  if s.memSize ≤ a then outOfBounds s a else next (s.mem.read a)

/-- `CheckReg(i)` and what follows it (10_state.md R23). -/
def withReg (s : State) (i : Byte) (next : Fin 8 → State) : State :=
  if 7 < i.toNat then invalidRegister s i else next (Fin.ofNat 8 i.toNat)

/-- LDI at `p` (41_load_print.md R120). -/
def ldi (s : State) (p : Nat) : State :=
  withRead s (p + 1) fun r => withRead s (p + 2) fun v => withReg s r fun i =>
    { s with regs := s.regs.set i v, pc := BitVec.ofNat 9 (p + 3) }

/-- PRN at `p` (41_load_print.md R122). -/
def prn (s : State) (p : Nat) : State :=
  withRead s (p + 1) fun r => withReg s r fun i =>
    { s with out := s.out ++ [.print s.regs[i]], pc := BitVec.ofNat 9 (p + 2) }

/-- MUL at `p` (42_alu.md R131). -/
def mul (s : State) (p : Nat) : State :=
  withRead s (p + 1) fun a => withRead s (p + 2) fun b =>
    withReg s a fun i => withReg s b fun j =>
      { s with
        out := s.out ++ [.mulResult (BitVec.ofNat 16 (s.regs[i].toNat * s.regs[j].toNat))]
        pc := BitVec.ofNat 9 (p + 3) }

/-- PUSH at `p` (43_stack.md R146). -/
def push (s : State) (p : Nat) : State :=
  withRead s (p + 1) fun r => withReg s r fun i =>
    let sp := (s.regs[7].toNat + 255) % 256
    let v := if r.toNat = 7 then BitVec.ofNat 8 sp else s.regs[i]
    if s.memSize ≤ sp then outOfBounds s sp
    else
      { s with
        mem := s.mem.write sp v
        regs := s.regs.set 7 (BitVec.ofNat 8 sp)
        pc := BitVec.ofNat 9 (p + 2) }

/-- POP at `p` (43_stack.md R147). -/
def pop (s : State) (p : Nat) : State :=
  withRead s (p + 1) fun r => withReg s r fun i => withRead s s.regs[7].toNat fun v =>
    let regs := s.regs.set i v
    { s with
      regs := regs.set 7 (BitVec.ofNat 8 ((regs[7].toNat + 1) % 256))
      pc := BitVec.ofNat 9 (p + 2) }

/-- `step()` (40_dispatch.md R95). -/
def step (s : State) : State :=
  if s.status ≠ .running then s
  else
    let p := s.pc.toNat
    withRead s p fun op =>
      if op = 0x01#8 then { s with status := .halted, faultInfo := .none }
      else if op = 0x82#8 then ldi s p
      else if op = 0x47#8 then prn s p
      else if op = 0xA2#8 then mul s p
      else if op = 0x45#8 then push s p
      else if op = 0x46#8 then pop s p
      else { s with status := .haltedUnknownOpcode, faultInfo := .opcode op }

/-- The bytes of an instruction stand in memory at PC, all of them in bounds. -/
def codeAt (s : State) (p : Nat) (bytes : List Byte) : Prop :=
  p + bytes.length ≤ s.memSize ∧ ∀ k, (h : k < bytes.length) → s.mem.read (p + k) = bytes[k]

/-- A byte as an image line: eight binary digits, most significant first (30_encoding.md R86). -/
def binaryLine (b : Byte) : List Char :=
  (List.range 8).map fun k => if b.getMsbD k then '1' else '0'

end Sys2Proof.Pseudocode

open Sys2Proof Sys2Proof.Machine

/-! ## Encoding -/

/-- Decoding and encoding agree in both directions: bytes decode to `i` with `rest` left over
exactly when they are the encoding of `i` followed by `rest`. Every operand byte is covered, also a
register index 8..255 (30_encoding.md sections 1 to 3). -/
def Obligations.DecodeIsInverseOfEncode : Prop :=
  ∀ (bytes rest : List Byte) (i : Instr),
    decode bytes = .ok (i, rest) ↔ bytes = encode i ++ rest

/-- The opcode table: the whole byte is compared with the six assigned values, each with its operand
count and length, and the other 250 have no entry (30_encoding.md R80, R82). -/
def Obligations.OpcodeTableIsExactAndClosed : Prop :=
  (∀ b, opcodeOf b = some .ldi ↔ b = 0b10000010) ∧
  (∀ b, opcodeOf b = some .prn ↔ b = 0b01000111) ∧
  (∀ b, opcodeOf b = some .hlt ↔ b = 0b00000001) ∧
  (∀ b, opcodeOf b = some .mul ↔ b = 0b10100010) ∧
  (∀ b, opcodeOf b = some .push ↔ b = 0b01000101) ∧
  (∀ b, opcodeOf b = some .pop ↔ b = 0b01000110) ∧
  (Opcode.ldi.operands = 2 ∧ Opcode.prn.operands = 1 ∧ Opcode.hlt.operands = 0 ∧
    Opcode.mul.operands = 2 ∧ Opcode.push.operands = 1 ∧ Opcode.pop.operands = 1) ∧
  (∀ i, ∃ op operands o, encode i = op :: operands ∧ opcodeOf op = some o ∧
    operands.length = o.operands) ∧
  (∀ b, opcodeOf b = none ↔ b = 0x00 ∨ (0x02 ≤ b ∧ b ≤ 0x44) ∨ (0x48 ≤ b ∧ b ≤ 0x81) ∨
    (0x83 ≤ b ∧ b ≤ 0xA1) ∨ 0xA3 ≤ b) ∧
  ((List.range 256).filter fun n => (opcodeOf (BitVec.ofNat 8 n)).isNone).length = 250

/-- An unassigned opcode byte is rejected by name whatever follows it; an assigned one is rejected
only for a missing operand, named by its place (30_encoding.md sections 1 and 3). -/
def Obligations.DecodeRejectsByName : Prop :=
  ∀ (op : Byte) (operands : List Byte),
    (opcodeOf op = none → decode (op :: operands) = .error (.unassigned op)) ∧
    (∀ o, opcodeOf op = some o → operands.length < o.operands →
      decode (op :: operands) = .error (.missingOperand (operands.length + 1))) ∧
    (∀ o, opcodeOf op = some o → o.operands ≤ operands.length →
      ∃ i, decode (op :: operands) = .ok (i, operands.drop o.operands) ∧
        i.length = 1 + o.operands)

/-- Words written out from 30_encoding.md section 3 decode to the instructions they stand for. -/
def Obligations.SampleWordsDecode : Prop :=
  decode [0b10000010, 0, 8] = .ok (.ldi 0 8, []) ∧
  decode [0b01000111, 0, 0b00000001] = .ok (.prn 0, [0b00000001]) ∧
  decode [0b00000001] = .ok (.hlt, []) ∧
  decode [0b10100010, 0, 1] = .ok (.mul 0 1, []) ∧
  decode [0b01000101, 7] = .ok (.push 7, []) ∧
  decode [0b01000110, 255] = .ok (.pop 255, []) ∧
  decode [0b11111111, 0, 0] = .error (.unassigned 0b11111111)

/-- Bits [7:6] of an assigned opcode byte are its operand count, and of the six only MUL's has bit 5
(30_encoding.md R81, an inference the spec draws from its table). -/
def Obligations.OpcodeBitsMirrorOperandCount : Prop :=
  ∀ (op : Byte) (o : Opcode), opcodeOf op = some o →
    (op >>> 6).toNat = o.operands ∧ (op.getLsbD 5 = true ↔ o = .mul)

/-! ## The step -/

/-- The model's step, and the `step` port with the STATUS it returns, is the spec's pseudocode of a
step, handlers and all: LDI, PRN, MUL and HLT as
40_dispatch.md R95, R101, 41_load_print.md R120, R122 and 42_alu.md R131 write them. PUSH and POP
are as 43_stack.md R146 and R147 write them, which rest on the spec's decisions D5 and D33 (log 11).
That a failed step answers a next state is log 2. -/
def Obligations.StepIsThePseudocode : Prop :=
  ∀ s : State, Machine.step s = .next (Pseudocode.step s) ∧
    s.call .step = (.stepped (Pseudocode.step s).status, Pseudocode.step s)

/-- When an instruction's bytes stand at PC of a running core, the step is that instruction's
execution; the step adds nothing around it. -/
def Obligations.StepRunsTheDecodedInstruction : Prop :=
  ∀ (s : State) (i : Instr), s.status = .running → Pseudocode.codeAt s s.pc.toNat (encode i) →
    step s = exec i s

/-- A step never refuses and never stops outside the state: it answers a next state always. For a step
that fails this is the model's reading of 60_exceptions.md R162, which gives the state left, beside
40_dispatch.md R104, which calls a failed run a fault outcome (log 2). -/
def Obligations.EveryStepAnswersANextState : Prop :=
  ∀ s : State, ∃ t, step s = .next t

/-- A stopped core does not step (40_dispatch.md R100, the spec's decision D11). -/
def Obligations.StoppedCoreStepChangesNothing : Prop :=
  ∀ s : State, s.status ≠ .running → step s = .next s ∧ s.call .step = (.stepped s.status, s) ∧
    s.call .run = (.stepped s.status, s)

/-- An opcode fetch at or above MEM_SIZE fails with the address of PC
(40_dispatch.md section 1, 60_exceptions.md section 3). -/
def Obligations.OpcodeFetchPastMemoryFails : Prop :=
  ∀ s : State, s.status = .running → s.memSize ≤ s.pc.toNat →
    step s = .next (Pseudocode.outOfBounds s s.pc.toNat)

/-- An instruction cut short by the end of memory fails at its first missing operand byte, whatever
its register operands are: operand fetches come before register checks (60_exceptions.md R164, the
spec's decision D8). -/
def Obligations.OperandFetchPastMemoryFails : Prop :=
  ∀ (s : State) (o : Opcode) (k : Nat), s.status = .running →
    opcodeOf (s.mem.read s.pc.toNat) = some o → 1 ≤ k → k ≤ o.operands →
    s.pc.toNat + k = s.memSize →
    step s = .next (Pseudocode.outOfBounds s (s.pc.toNat + k))

/-- An unassigned byte at PC halts the core, with the status of its own, without an error; and a
byte of memory that nothing has written since reset is such a byte (30_encoding.md R83). That PC
stays and the byte is recorded is the spec's step of 40_dispatch.md section 1. -/
def Obligations.UnassignedByteHalts : Prop :=
  (∀ s : State, s.status = .running → s.pc.toNat < s.memSize →
    opcodeOf (s.mem.read s.pc.toNat) = none →
    step s = .next { s with
      status := .haltedUnknownOpcode, faultInfo := .opcode (s.mem.read s.pc.toNat) }) ∧
  (∀ (n : Fin 256) (a : Nat), opcodeOf ((State.resetAt n).mem.read a) = none)

/-- A step that fails commits nothing: the state after it is the state before it but for STATUS and
FAULT_INFO (60_exceptions.md R162, the spec's decision D7). -/
def Obligations.FailedStepCommitsNothing : Prop :=
  ∀ s t : State, s.status = .running → step s = .next t → t.status.failed = true →
    t = { s with status := t.status, faultInfo := t.faultInfo }

/-- No step raises UnsupportedOperation (60_exceptions.md R161, an inference of the spec). -/
def Obligations.StepNeverRaisesUnsupportedOperation : Prop :=
  ∀ s t : State, s.status = .running → step s = .next t →
    t.status ≠ .failedUnsupportedOperation

/-- How PC changes: by the instruction's length when LDI, PRN, MUL, PUSH or POP completes; not at
all on HLT, an unassigned byte, a fault or a stopped core; and by no port but reset and the two that
step (10_state.md R28, 40_dispatch.md R105). -/
def Obligations.PcMovesOnlyByInstructionLength : Prop :=
  (∀ s t : State, s.status = .running → step s = .next t →
    (t.status = .running →
      ∃ i, Pseudocode.codeAt s s.pc.toNat (encode i) ∧ i ≠ .hlt ∧
        t.pc.toNat = s.pc.toNat + (encode i).length) ∧
    (t.status ≠ .running → t.pc = s.pc)) ∧
  (∀ s t : State, s.status ≠ .running → step s = .next t → t.pc = s.pc) ∧
  (∀ (s : State) (c : PortCall), c ≠ .reset → c ≠ .step → c ≠ .run → (s.call c).2.pc = s.pc)

/-- A step writes memory only by a PUSH that is at PC, and only the cell that PUSH addresses
(20_memory.md section 1). -/
def Obligations.StepWritesMemoryOnlyByPush : Prop :=
  ∀ (s t : State) (a : Nat), step s = .next t → t.mem.read a ≠ s.mem.read a →
    ∃ r, Pseudocode.codeAt s s.pc.toNat (encode (.push r)) ∧ a = (pushAddr s).toNat ∧
      t.status = .running

/-- A step appends at most one event, only PRN and MUL append one, and no event is removed
(10_state.md R35; the order is 40_dispatch.md R107, an inference of the spec). -/
def Obligations.OutputIsAppendOnly : Prop :=
  ∀ s t : State, step s = .next t →
    t.out = s.out ∨
    (∃ r v, Pseudocode.codeAt s s.pc.toNat (encode (.prn r)) ∧ t.out = s.out ++ [.print v]) ∨
    (∃ a b p, Pseudocode.codeAt s s.pc.toNat (encode (.mul a b)) ∧
      t.out = s.out ++ [.mulResult p])

/-- What the core has printed does not influence what it does: two cores that differ only in OUT
make the same step and append the same events: neither the step nor a handler of the spec reads OUT
(10_state.md section 7, 40_dispatch.md section 1, and the handlers of 41_load_print.md, 42_alu.md and
43_stack.md). -/
def Obligations.OutputDoesNotInfluenceSteps : Prop :=
  ∀ (s : State) (other : List OutEvent), ∃ (t : State) (new : List OutEvent),
    step s = .next { t with out := s.out ++ new } ∧
    step { s with out := other } = .next { t with out := other ++ new }

/-! ## The instructions -/

/-- LDI completes for every register, R7 among them, and every value: the register holds the value
unchanged, PC is past the instruction, and nothing else changes (30_encoding.md R79). -/
def Obligations.LdiLoadsTheImmediate : Prop :=
  ∀ (r v : Byte) (s : State) (h : r.toNat < 8),
    exec (.ldi r v) s = .next { s with regs := s.regs.set r.toNat v, pc := s.pc + 3 }

/-- The LDI law, through the step: "after executing LOAD_IMMEDIATE(r, v), registers[r] == v and the
program counter has advanced exactly 3 bytes" (41_load_print.md R121, an inference of the spec). -/
def Obligations.LdiLawHoldsOfTheStep : Prop :=
  ∀ (r v : Byte) (s : State), (h : r.toNat < 8) → s.status = .running →
    Pseudocode.codeAt s s.pc.toNat [0x82, r, v] →
    ∃ t, step s = .next t ∧ t.regs[r.toNat] = v ∧ t.pc.toNat = s.pc.toNat + 3 ∧
      (∀ j : Fin 8, j.val ≠ r.toNat → t.getReg j = s.getReg j) ∧ t.status = .running ∧
      t.out = s.out ∧ t.mem = s.mem

/-- PRN completes for every register: it appends the register's value to OUT and changes no register
and no cell (41_load_print.md, PRN). -/
def Obligations.PrnPrintsTheRegister : Prop :=
  ∀ (r : Byte) (s : State) (h : r.toNat < 8),
    exec (.prn r) s =
      .next { s with out := s.out ++ [.print s.regs[r.toNat]], pc := s.pc + 2 }

/-- MUL completes for every pair of registers, equal ones too: it appends the exact product to OUT
and writes no register (42_alu.md sections 1 and 2; no write-back is the spec's decision D6). -/
def Obligations.MulEmitsTheExactProduct : Prop :=
  ∀ (a b : Byte) (s : State) (ha : a.toNat < 8) (hb : b.toNat < 8), ∃ p : Product,
    exec (.mul a b) s = .next { s with out := s.out ++ [.mulResult p], pc := s.pc + 3 } ∧
    p.toNat = s.regs[a.toNat].toNat * s.regs[b.toNat].toNat

/-- HLT is the one byte 0x01, in any cell of memory; it stops the core as HALTED with PC at its own
address, and a later step or run does nothing (40_dispatch.md R101). -/
def Obligations.HltHaltsInPlace : Prop :=
  encode .hlt = [0b00000001] ∧
  (∀ s : State, exec .hlt s = .next { s with status := .halted, faultInfo := .none }) ∧
  (∀ s : State, s.status = .running → s.pc.toNat < s.memSize → s.mem.read s.pc.toNat = 0x01 →
    ∃ t, step s = .next t ∧ t = { s with status := .halted, faultInfo := .none } ∧
      step t = .next t ∧ t.call .run = (.stepped .halted, t))

/-- PUSH completes whenever its register exists and the decremented stack pointer is in bounds: the
cell there holds the register, R7 is the decremented pointer, which is also what PUSH R7 stores, and
every other cell reads as before (43_stack.md section 2; the wrap and PUSH R7 are the spec's
decisions D5 and D33). -/
def Obligations.PushStoresBelowTheTop : Prop :=
  ∀ (r : Byte) (s : State) (h : r.toNat < 8), (pushAddr s).toNat < s.memSize → ∃ m,
    exec (.push r) s =
      .next { s with mem := m, regs := s.regs.set 7 (s.regs[7] - 1), pc := s.pc + 2 } ∧
    (pushAddr s).toNat = (s.regs[7].toNat + 255) % 256 ∧
    m.read (pushAddr s).toNat = (if r = 7 then s.regs[7] - 1 else s.regs[r.toNat]) ∧
    ∀ a, a ≠ (pushAddr s).toNat → m.read a = s.mem.read a

/-- PUSH whose decremented stack pointer is out of bounds fails at that address and changes neither
R7 nor memory (43_stack.md section 2, the spec's decisions D5 and D7). -/
def Obligations.PushPastMemoryFails : Prop :=
  ∀ (r : Byte) (s : State), r.toNat < 8 → s.memSize ≤ (pushAddr s).toNat →
    exec (.push r) s = .next (Pseudocode.outOfBounds s ((s.regs[7].toNat + 255) % 256))

/-- POP completes whenever its register exists and R7 is in bounds: the register holds the cell and
R7 is incremented mod 256; POP R7 leaves the loaded value plus 1 (43_stack.md section 3; the wrap
and POP R7 are the spec's decisions D5 and D33). -/
def Obligations.PopLoadsTheTop : Prop :=
  ∀ (r : Byte) (s : State) (h : r.toNat < 8), s.regs[7].toNat < s.memSize → ∃ t,
    exec (.pop r) s = .next { s with regs := t, pc := s.pc + 2 } ∧
    (r ≠ 7 → t[r.toNat] = s.mem.read s.regs[7].toNat ∧ t[7] = s.regs[7] + 1) ∧
    (r = 7 → t[7] = s.mem.read s.regs[7].toNat + 1) ∧
    ∀ j : Fin 8, j.val ≠ r.toNat → j ≠ 7 → t[j] = s.regs[j]

/-- POP whose stack pointer is out of bounds fails at that address and changes no register
(43_stack.md section 3, the spec's decision D7). -/
def Obligations.PopPastMemoryFails : Prop :=
  ∀ (r : Byte) (s : State), r.toNat < 8 → s.memSize ≤ s.regs[7].toNat →
    exec (.pop r) s = .next (Pseudocode.outOfBounds s s.regs[7].toNat)

/-- A register index is never masked, wrapped or clamped: 0..7 name R0..R7, and an instruction with a
register operand above 7 raises InvalidRegister with that index (10_state.md R23, 30_encoding.md R78).
The order, the first operand before the second and PUSH and POP before their data access, is the
spec's decision D8, and the state left, with nothing committed, its decision D7 (log 11); that it is
a next state is log 2. -/
def Obligations.InvalidRegisterIsReported : Prop :=
  (∀ i : Byte, i.toNat ≤ 7 → checkReg i = .ok (Fin.ofNat 8 i.toNat)) ∧
  ∀ (s : State) (r : Byte), 7 < r.toNat →
    checkReg r = .error (.invalidRegister r) ∧
    (∀ v, exec (.ldi r v) s = .next (Pseudocode.invalidRegister s r)) ∧
    exec (.prn r) s = .next (Pseudocode.invalidRegister s r) ∧
    (∀ b, exec (.mul r b) s = .next (Pseudocode.invalidRegister s r)) ∧
    (∀ a, a.toNat ≤ 7 → exec (.mul a r) s = .next (Pseudocode.invalidRegister s r)) ∧
    exec (.push r) s = .next (Pseudocode.invalidRegister s r) ∧
    exec (.pop r) s = .next (Pseudocode.invalidRegister s r)

/-! ## Frames -/

/-- What every instruction leaves unchanged among the registers: LDI all but its destination, PUSH
all but R7, POP all but its destination and R7, and PRN, MUL and HLT all. -/
def Obligations.RegisterFrame : Prop :=
  (∀ r v s t, exec (.ldi r v) s = .next t →
    ∀ j : Fin 8, j.val ≠ r.toNat → t.getReg j = s.getReg j) ∧
  (∀ r s t, exec (.push r) s = .next t → ∀ j : Fin 8, j ≠ 7 → t.getReg j = s.getReg j) ∧
  (∀ r s t, exec (.pop r) s = .next t →
    ∀ j : Fin 8, j.val ≠ r.toNat → j ≠ 7 → t.getReg j = s.getReg j) ∧
  (∀ r s t, exec (.prn r) s = .next t → ∀ j, t.getReg j = s.getReg j) ∧
  (∀ a b s t, exec (.mul a b) s = .next t → ∀ j, t.getReg j = s.getReg j) ∧
  (∀ s t, exec .hlt s = .next t → ∀ j, t.getReg j = s.getReg j)

/-- What every instruction leaves unchanged in memory: PUSH every cell but the one it addresses (and
that one too when it fails), every other instruction all of memory. -/
def Obligations.MemoryFrame : Prop :=
  (∀ r s t, exec (.push r) s = .next t → ∀ a, a ≠ (pushAddr s).toNat →
    t.mem.read a = s.mem.read a) ∧
  (∀ r s t, exec (.push r) s = .next t → t.status ≠ s.status → ∀ a,
    t.mem.read a = s.mem.read a) ∧
  (∀ i s t, exec i s = .next t → (∀ r, i ≠ .push r) → ∀ a, t.mem.read a = s.mem.read a)

/-- What every instruction leaves unchanged elsewhere: the memory size always; OUT unless it is a
PRN or a MUL; STATUS and FAULT_INFO unless it is HLT or fails, and a failure changes nothing else. -/
def Obligations.StatusAndOutputFrame : Prop :=
  ∀ (i : Instr) (s t : State), exec i s = .next t →
    t.lastAddr = s.lastAddr ∧
    ((∀ r, i ≠ .prn r) → (∀ a b, i ≠ .mul a b) → t.out = s.out) ∧
    (i ≠ .hlt → (t.status = s.status ∧ t.faultInfo = s.faultInfo) ∨
      (t.status.failed = true ∧
        t = { s with status := t.status, faultInfo := t.faultInfo }))

/-! ## The stack -/

/-- SP_DEC and SP_INC are mod 256 and undo each other (43_stack.md R145, the spec's decision D5). -/
def Obligations.StackPointerArithmeticIsModular : Prop :=
  ∀ x : Byte, (spDec x).toNat = (if x.toNat = 0 then 255 else x.toNat - 1) ∧
    (spInc x).toNat = (if x.toNat = 255 then 0 else x.toNat + 1) ∧
    spInc (spDec x) = x ∧ spDec (spInc x) = x

/-- PUSH then POP on the same register restores it and the stack pointer, for R7 too; the one other
change is the cell below the old top, which holds what PUSH stored (43_stack.md R148, an inference
of the spec; for R7 that is SP_DEC(s) by 43_stack.md R146, log 10). -/
def Obligations.PushThenPopRestores : Prop :=
  ∀ (r : Byte) (s : State), (h : r.toNat < 8) → s.status = .running →
    Pseudocode.codeAt s s.pc.toNat [0x45, r, 0x46, r] →
    (spDec s.sp).toNat < s.memSize →
    (spDec s.sp).toNat ≠ s.pc.toNat + 2 → (spDec s.sp).toNat ≠ s.pc.toNat + 3 →
    ∃ t u, step s = .next t ∧ step t = .next u ∧
      u = { s with mem := u.mem, pc := u.pc } ∧
      u.pc.toNat = s.pc.toNat + 4 ∧
      u.mem.read (spDec s.sp).toNat = (if r = 7 then spDec s.sp else s.regs[r.toNat]) ∧
      ∀ a, a ≠ (spDec s.sp).toNat → u.mem.read a = s.mem.read a

/-- PUSH Ra then POP Rb, with a and b different and b not R7, copies what PUSH stored into Rb and
leaves R7 as it was (43_stack.md R149, an inference of the spec). -/
def Obligations.PushThenPopCopies : Prop :=
  ∀ (a b : Byte) (s : State), (ha : a.toNat < 8) → (hb : b.toNat < 7) → a ≠ b →
    s.status = .running →
    Pseudocode.codeAt s s.pc.toNat [0x45, a, 0x46, b] →
    (spDec s.sp).toNat < s.memSize →
    (spDec s.sp).toNat ≠ s.pc.toNat + 2 → (spDec s.sp).toNat ≠ s.pc.toNat + 3 →
    ∃ t u, step s = .next t ∧ step t = .next u ∧
      u = { s with
        mem := u.mem, pc := u.pc
        regs := s.regs.set b.toNat (if a = 7 then spDec s.sp else s.regs[a.toNat]) } ∧
      u.pc.toNat = s.pc.toNat + 4 ∧
      u.mem.read (spDec s.sp).toNat = (if a = 7 then spDec s.sp else s.regs[a.toNat]) ∧
      ∀ x, x ≠ (spDec s.sp).toNat → u.mem.read x = s.mem.read x

/-- At the reference size a PUSH with R7 = 0, its reset value, fails at address 255; with 256 cells
it completes and R7 wraps to 255 (43_stack.md R150, an inference of the spec). -/
def Obligations.FirstPushFromResetFails : Prop :=
  ∀ (r : Byte), r.toNat < 8 →
    exec (.push r) State.reset = .next (Pseudocode.outOfBounds State.reset 255) ∧
    ∃ t, exec (.push r) (State.resetAt 255) = .next t ∧ t.getReg 7 = 255 ∧ t.status = .running

/-- A PUSH into the next opcode byte changes what runs next, with no delay, for every register and
every byte pushed (20_memory.md R64, an inference of the spec): an unassigned byte halts the core by
that byte, an opcode runs with the operand bytes that already stand after it, and an opcode whose
operands end past memory fails there. PUSH R7 pushes the decremented pointer (decision D33). -/
def Obligations.PushedCodeRunsNext : Prop :=
  ∀ (r : Byte) (s : State), (h : r.toNat < 8) → s.status = .running →
    Pseudocode.codeAt s s.pc.toNat [0x45, r] →
    (spDec s.sp).toNat = s.pc.toNat + 2 → (spDec s.sp).toNat < s.memSize →
    let pushed := if r = 7 then spDec s.sp else s.regs[r.toNat]
    ∃ t, step s = .next t ∧ t.status = .running ∧ t.pc.toNat = s.pc.toNat + 2 ∧
      t.mem.read (s.pc.toNat + 2) = pushed ∧
      (opcodeOf pushed = none →
        step t = .next { t with status := .haltedUnknownOpcode, faultInfo := .opcode pushed }) ∧
      (∀ i, (encode i).head? = some pushed →
        Pseudocode.codeAt s (s.pc.toNat + 3) (encode i).tail → step t = exec i t) ∧
      (∀ o k, opcodeOf pushed = some o → 1 ≤ k → k ≤ o.operands →
        s.pc.toNat + 2 + k = s.memSize →
        step t = .next (Pseudocode.outOfBounds t (s.pc.toNat + 2 + k)))

/-! ## The ALU and its port -/

/-- The ALU's two functions: the exact product, at most 65025, and the sum mod 256
(42_alu.md R130, the spec's decisions D4 and D6). -/
def Obligations.AluFunctionsAreExactAndModular : Prop :=
  ∀ x y : Byte, (aluMul x y).toNat = x.toNat * y.toNat ∧ (aluMul x y).toNat ≤ 65025 ∧
    (aluAdd x y).toNat = (x.toNat + y.toNat) % 256

/-- The `alu` port adds in any STATUS and changes one register; a selector other than ADD fails
before the register indices are looked at, stops the core and changes no register
(42_alu.md R134, the spec's decisions D14 and D30). -/
def Obligations.AluPortAddsOrFails : Prop :=
  (∀ (s : State) (a b : Byte) (ha : a.toNat < 8) (hb : b.toNat < 8), ∃ v : Byte,
    s.call (.alu .add a b) = (.ok, { s with regs := s.regs.set a.toNat v }) ∧
    v.toNat = (s.regs[a.toNat].toNat + s.regs[b.toNat].toNat) % 256) ∧
  (∀ (s : State) (code : Nat) (a b : Byte),
    s.call (.alu (.other code) a b) = (.err (.unsupportedOperation (.other code)),
      { s with status := .failedUnsupportedOperation, faultInfo := .op (.other code) }))

/-- The register ports return InvalidRegister and change nothing; the `alu` port returns it, the first
index before the second, and stops the core with no register written
(10_state.md R40 and 42_alu.md R134, the spec's decisions D12 and D14). -/
def Obligations.PortsReportInvalidRegisters : Prop :=
  ∀ (s : State) (r : Byte), 7 < r.toNat →
    s.call (.regRead r) = (.err (.invalidRegister r), s) ∧
    (∀ v, s.call (.regWrite r v) = (.err (.invalidRegister r), s)) ∧
    (∀ b, s.call (.alu .add r b) = (.err (.invalidRegister r), Pseudocode.invalidRegister s r)) ∧
    (∀ a, a.toNat ≤ 7 →
      s.call (.alu .add a r) = (.err (.invalidRegister r), Pseudocode.invalidRegister s r))

/-! ## The other ports -/

/-- `load` copies an image that fits to address 0 up, keeps the cells beyond it and everything but
memory, and refuses a larger one whole (20_memory.md R67, the spec's decision D12). -/
def Obligations.LoadCopiesOrRefuses : Prop :=
  ∀ (s : State) (image : List Byte),
    (image.length ≤ s.memSize → ∃ m, s.call (.load image) = (.ok, { s with mem := m }) ∧
      (∀ a, (h : a < image.length) → m.read a = image[a]) ∧
      ∀ a, image.length ≤ a → m.read a = s.mem.read a) ∧
    (s.memSize < image.length →
      s.call (.load image) = (.err (.outOfBounds (BitVec.ofNat 9 s.memSize)), s))

/-- Every address at or above MEM_SIZE is refused by the memory ports with that address and nothing
is written; every other reads its cell, and a write is read back and leaves every other cell
(20_memory.md R68, the spec's decision D12). -/
def Obligations.MemoryPortsReadWhatWasWritten : Prop :=
  ∀ (s : State) (a : Addr) (v : Byte),
    (s.memSize ≤ a.toNat →
      s.call (.memRead a) = (.err (.outOfBounds a), s) ∧
      s.call (.memWrite a v) = (.err (.outOfBounds a), s)) ∧
    (a.toNat < s.memSize →
      s.call (.memRead a) = (.byte (s.mem.read a.toNat), s) ∧
      ∃ t, s.call (.memWrite a v) = (.ok, t) ∧ t = { s with mem := t.mem } ∧
        t.call (.memRead a) = (.byte v, t) ∧
        ∀ b, b ≠ a → (t.call (.memRead b)).1 = (s.call (.memRead b)).1)

/-- No register is hardwired: a value written through the register port is read back from every one
of R0..R7, and no other register changes (10_state.md R40, the spec's decision D12). -/
def Obligations.RegisterPortsReadWhatWasWritten : Prop :=
  ∀ (s : State) (i v : Byte), i.toNat < 8 →
    ∃ t, s.call (.regWrite i v) = (.ok, t) ∧ t = { s with regs := t.regs } ∧
      t.call (.regRead i) = (.byte v, t) ∧
      ∀ j, j ≠ i → (t.call (.regRead j)).1 = (s.call (.regRead j)).1

/-- The three inspections change nothing and never fail: `trace` shows PC, the three bytes from PC on,
ABSENT past the end of memory, and R0..R7; `status` shows STATUS and FAULT_INFO; OUT shows the whole
event sequence (10_state.md R31, R35, R39, 40_dispatch.md R108; the spec's decisions D10, D12, D13
and D15). -/
def Obligations.TraceShowsWithoutSideEffect : Prop :=
  ∀ s : State,
    (∃ w, s.call .trace = (.traced ⟨s.pc, w, s.regs⟩, s) ∧
      ∀ k : Fin 3, w[k] =
        if s.pc.toNat + k.val < s.memSize then some (s.mem.read (s.pc.toNat + k.val)) else none) ∧
    s.call .status = (.statusInfo s.status s.faultInfo, s) ∧
    s.call .out = (.events s.out, s)

/-- Only reset makes a stopped core run again, whatever the host calls
(40_dispatch.md R100, the spec's decision D11). -/
def Obligations.OnlyResetRestarts : Prop :=
  ∀ (s : State) (c : PortCall), s.status ≠ .running → c ≠ .reset → (s.call c).2.status ≠ .running

/-- Reset zeroes every register and every cell, at every memory size and from every state
(10_state.md R42, R43). -/
def Obligations.ResetZeroesRegistersAndMemory : Prop :=
  ∀ s : State, (∀ i, (s.call .reset).2.getReg i = 0) ∧ (∀ a, (s.call .reset).2.mem.read a = 0) ∧
    (∀ i, State.reset.getReg i = 0) ∧ (∀ a, State.reset.mem.read a = 0)

/-- Reset leaves PC at 0, STATUS RUNNING, FAULT_INFO NONE and OUT empty (10_state.md R44 to R47, the
spec's decision D28) and keeps the memory size; the reference core has 255 cells
(00_scope.md R10, decision D2; log 1). -/
def Obligations.ResetStartsAtZeroRunning : Prop :=
  ∀ s : State, (s.call .reset).2.pc = 0 ∧ (s.call .reset).2.status = .running ∧
    (s.call .reset).2.faultInfo = .none ∧ (s.call .reset).2.out = [] ∧
    (s.call .reset).2.memSize = s.memSize ∧ State.reset = (State.resetAt 254) ∧
    State.reset.memSize = 255

/-- The clean launch state: after reset and `load`, registers and PC are 0, the image is at address
0 up and every cell above it is 0 (70_reset_and_hazards.md R185, an inference of the spec). -/
def Obligations.CleanLaunchState : Prop :=
  ∀ (s : State) (image : List Byte), image.length ≤ s.memSize →
    let t := s.calls [.reset, .load image]
    (∀ i, t.getReg i = 0) ∧ t.pc = 0 ∧ t.status = .running ∧ t.faultInfo = .none ∧ t.out = [] ∧
    t.memSize = s.memSize ∧ (∀ a, (h : a < image.length) → t.mem.read a = image[a]) ∧
    ∀ a, image.length ≤ a → t.mem.read a = 0

/-- A core stepped from reset with nothing loaded halts at once on the byte 0x00 at address 0
(70_reset_and_hazards.md R181, an inference of the spec). -/
def Obligations.BootWithoutLoadHalts : Prop :=
  ∀ n : Fin 256, step (State.resetAt n) = .next { State.resetAt n with
    status := .haltedUnknownOpcode, faultInfo := .opcode 0x00 }

/-! ## Runs -/

/-- `run` steps while STATUS is RUNNING and returns the first stopped state; on a stopped core it
returns at once (40_dispatch.md R99). -/
def Obligations.RunStepsUntilStopped : Prop :=
  ∀ s : State, ∃ n, (s.call .run).2 = State.stepped^[n] s ∧
    (∀ k, k < n → (State.stepped^[k] s).status = .running) ∧
    (s.call .run).2.status ≠ .running ∧
    (s.call .run).1 = .stepped (s.call .run).2.status

/-- Every run ends within floor(MEM_SIZE/2) + 1 steps, from every state
(40_dispatch.md R103, an inference of the spec). -/
def Obligations.EveryRunEndsWithinHalfTheMemory : Prop :=
  ∀ s : State, ∃ n, n ≤ s.memSize / 2 + 1 ∧ (State.stepped^[n] s).status ≠ .running

/-- The end of a run that failed is a fault outcome naming the error, and of any other run its last
state (40_dispatch.md R104, the spec's decision D11; log 2). The premise is the invariant, stated
below. -/
def Obligations.FailedRunIsAFaultOutcome : Prop :=
  ∀ s : State, s.Inv →
    ((s.call .run).2.status.failed = true → ∃ e, runOutcome s = .fault e ∧
      (s.call .run).2.status = e.status ∧ (s.call .run).2.faultInfo = e.info) ∧
    ((s.call .run).2.status.failed = false → runOutcome s = .next (s.call .run).2)

/-! ## The invariant -/

/-- The invariant holds right after reset, at every memory size. -/
def Obligations.ResetMeetsTheInvariant : Prop :=
  ∀ n : Fin 256, (State.resetAt n).Inv ∧ State.reset.Inv

/-- Every step keeps the invariant: canonical memory inside the array, PC at most MEM_SIZE
(10_state.md R29), FAULT_INFO agreeing with STATUS (R31, R32), products at most 65025 (R35). -/
def Obligations.EveryStepKeepsTheInvariant : Prop :=
  ∀ s t : State, s.Inv → step s = .next t → t.Inv

/-- Every port call keeps the invariant, whatever the host passes. -/
def Obligations.EveryPortCallKeepsTheInvariant : Prop :=
  ∀ (s : State) (c : PortCall), s.Inv → (s.call c).2.Inv

/-- Canonical memories that read alike are equal data, so equal states are equal machines (the canonical
form is the model's own, log 14). -/
def Obligations.CanonicalMemoriesThatReadAlikeAreEqual : Prop :=
  ∀ m n : Memory, m.wf = true → n.wf = true → (∀ a, m.read a = n.read a) → m = n

/-! ## The host's side -/

/-- A program image with one eight-digit line a byte gives those bytes in file order
(30_encoding.md section 5). -/
def Obligations.ImageLinesGiveTheirBytes : Prop :=
  ∀ bytes : List Byte, imageOfLines (bytes.map Pseudocode.binaryLine) = .ok bytes
end

