-- ==== Sys2Proof/Laws/State.lean ====
section
/-! SUPPORT. One lemma per field per update of State, true by rfl, so that no proof unfolds a record
update; and reading a register after an update. -/

namespace Sys2Proof.Machine

section Fields

variable (s : State)

@[simp] theorem State.setReg_lastAddr (i : Fin 8) (v : Byte) : (s.setReg i v).lastAddr = s.lastAddr := rfl
@[simp] theorem State.setReg_regs (i : Fin 8) (v : Byte) : (s.setReg i v).regs = s.regs.set i v := rfl
@[simp] theorem State.setReg_pc (i : Fin 8) (v : Byte) : (s.setReg i v).pc = s.pc := rfl
@[simp] theorem State.setReg_mem (i : Fin 8) (v : Byte) : (s.setReg i v).mem = s.mem := rfl
@[simp] theorem State.setReg_status (i : Fin 8) (v : Byte) : (s.setReg i v).status = s.status := rfl
@[simp] theorem State.setReg_faultInfo (i : Fin 8) (v : Byte) : (s.setReg i v).faultInfo = s.faultInfo := rfl
@[simp] theorem State.setReg_out (i : Fin 8) (v : Byte) : (s.setReg i v).out = s.out := rfl
@[simp] theorem State.setReg_memSize (i : Fin 8) (v : Byte) : (s.setReg i v).memSize = s.memSize := rfl

@[simp] theorem State.emit_lastAddr (e : OutEvent) : (s.emit e).lastAddr = s.lastAddr := rfl
@[simp] theorem State.emit_regs (e : OutEvent) : (s.emit e).regs = s.regs := rfl
@[simp] theorem State.emit_pc (e : OutEvent) : (s.emit e).pc = s.pc := rfl
@[simp] theorem State.emit_mem (e : OutEvent) : (s.emit e).mem = s.mem := rfl
@[simp] theorem State.emit_status (e : OutEvent) : (s.emit e).status = s.status := rfl
@[simp] theorem State.emit_faultInfo (e : OutEvent) : (s.emit e).faultInfo = s.faultInfo := rfl
@[simp] theorem State.emit_out (e : OutEvent) : (s.emit e).out = s.out ++ [e] := rfl
@[simp] theorem State.emit_memSize (e : OutEvent) : (s.emit e).memSize = s.memSize := rfl
@[simp] theorem State.emit_getReg (e : OutEvent) (j : Fin 8) : (s.emit e).getReg j = s.getReg j := rfl
@[simp] theorem State.emit_sp (e : OutEvent) : (s.emit e).sp = s.sp := rfl

@[simp] theorem State.advance_lastAddr (n : Nat) : (s.advance n).lastAddr = s.lastAddr := rfl
@[simp] theorem State.advance_regs (n : Nat) : (s.advance n).regs = s.regs := rfl
@[simp] theorem State.advance_pc (n : Nat) : (s.advance n).pc = s.pc + BitVec.ofNat 9 n := rfl
@[simp] theorem State.advance_mem (n : Nat) : (s.advance n).mem = s.mem := rfl
@[simp] theorem State.advance_status (n : Nat) : (s.advance n).status = s.status := rfl
@[simp] theorem State.advance_faultInfo (n : Nat) : (s.advance n).faultInfo = s.faultInfo := rfl
@[simp] theorem State.advance_out (n : Nat) : (s.advance n).out = s.out := rfl
@[simp] theorem State.advance_memSize (n : Nat) : (s.advance n).memSize = s.memSize := rfl
@[simp] theorem State.advance_getReg (n : Nat) (j : Fin 8) : (s.advance n).getReg j = s.getReg j := rfl
@[simp] theorem State.advance_sp (n : Nat) : (s.advance n).sp = s.sp := rfl

@[simp] theorem State.takeError_lastAddr (e : Fault) : (s.takeError e).lastAddr = s.lastAddr := rfl
@[simp] theorem State.takeError_regs (e : Fault) : (s.takeError e).regs = s.regs := rfl
@[simp] theorem State.takeError_pc (e : Fault) : (s.takeError e).pc = s.pc := rfl
@[simp] theorem State.takeError_mem (e : Fault) : (s.takeError e).mem = s.mem := rfl
@[simp] theorem State.takeError_status (e : Fault) : (s.takeError e).status = e.status := rfl
@[simp] theorem State.takeError_faultInfo (e : Fault) : (s.takeError e).faultInfo = e.info := rfl
@[simp] theorem State.takeError_out (e : Fault) : (s.takeError e).out = s.out := rfl
@[simp] theorem State.takeError_memSize (e : Fault) : (s.takeError e).memSize = s.memSize := rfl
@[simp] theorem State.takeError_getReg (e : Fault) (j : Fin 8) : (s.takeError e).getReg j = s.getReg j := rfl
@[simp] theorem State.takeError_sp (e : Fault) : (s.takeError e).sp = s.sp := rfl

@[simp] theorem State.halt_lastAddr : (s.halt).lastAddr = s.lastAddr := rfl
@[simp] theorem State.halt_regs : (s.halt).regs = s.regs := rfl
@[simp] theorem State.halt_pc : (s.halt).pc = s.pc := rfl
@[simp] theorem State.halt_mem : (s.halt).mem = s.mem := rfl
@[simp] theorem State.halt_status : (s.halt).status = .halted := rfl
@[simp] theorem State.halt_faultInfo : (s.halt).faultInfo = .none := rfl
@[simp] theorem State.halt_out : (s.halt).out = s.out := rfl
@[simp] theorem State.halt_memSize : (s.halt).memSize = s.memSize := rfl
@[simp] theorem State.halt_getReg (j : Fin 8) : (s.halt).getReg j = s.getReg j := rfl
@[simp] theorem State.halt_sp : (s.halt).sp = s.sp := rfl

@[simp] theorem State.haltUnknown_lastAddr (b : Byte) : (s.haltUnknown b).lastAddr = s.lastAddr := rfl
@[simp] theorem State.haltUnknown_regs (b : Byte) : (s.haltUnknown b).regs = s.regs := rfl
@[simp] theorem State.haltUnknown_pc (b : Byte) : (s.haltUnknown b).pc = s.pc := rfl
@[simp] theorem State.haltUnknown_mem (b : Byte) : (s.haltUnknown b).mem = s.mem := rfl
@[simp] theorem State.haltUnknown_status (b : Byte) : (s.haltUnknown b).status = .haltedUnknownOpcode := rfl
@[simp] theorem State.haltUnknown_faultInfo (b : Byte) : (s.haltUnknown b).faultInfo = .opcode b := rfl
@[simp] theorem State.haltUnknown_out (b : Byte) : (s.haltUnknown b).out = s.out := rfl
@[simp] theorem State.haltUnknown_memSize (b : Byte) : (s.haltUnknown b).memSize = s.memSize := rfl
@[simp] theorem State.haltUnknown_getReg (b : Byte) (j : Fin 8) : (s.haltUnknown b).getReg j = s.getReg j := rfl
@[simp] theorem State.haltUnknown_sp (b : Byte) : (s.haltUnknown b).sp = s.sp := rfl

theorem State.withMem_memSize (m : Memory) :
    State.memSize { s with mem := m } = s.memSize := rfl

end Fields

theorem State.getReg_setReg (s : State) (i j : Fin 8) (v : Byte) :
    (s.setReg i v).getReg j = if i = j then v else s.getReg j := by
  simp only [State.getReg, State.setReg, Fin.getElem_fin, Vector.getElem_set, Fin.ext_iff]

@[simp] theorem State.getReg_setReg_self (s : State) (i : Fin 8) (v : Byte) :
    (s.setReg i v).getReg i = v := by simp [State.getReg_setReg]

theorem State.getReg_setReg_other (s : State) (i j : Fin 8) (v : Byte) (h : j ≠ i) :
    (s.setReg i v).getReg j = s.getReg j := by simp [State.getReg_setReg, h.symm]

theorem State.memSize_bounds (s : State) : 1 ≤ s.memSize ∧ s.memSize ≤ 256 := by
  have := s.lastAddr.isLt
  constructor <;> simp only [State.memSize] <;> omega

@[simp] theorem State.resetAt_memSize (n : Fin 256) : (State.resetAt n).memSize = n.val + 1 := rfl

@[simp] theorem State.resetAt_getReg (n : Fin 256) (i : Fin 8) : (State.resetAt n).getReg i = 0 := by
  simp [State.getReg, State.resetAt]

end Sys2Proof.Machine
end

