-- ==== Sys2Proof/Laws/Memory.lean ====
section
/-! SUPPORT. The laws of memory: read after write, and every operation keeps the canonical form and
lists no cell beyond the ones written. -/

namespace Sys2Proof.Machine

@[simp] theorem Memory.read_nil (a : Nat) : Memory.read [] a = Memory.unlisted := rfl

theorem Memory.read_cons (c : Host.Cell) (m : Memory) (a : Nat) :
    Memory.read (c :: m) a = if a = c.1 then c.2 else Memory.read m a := by
  obtain ⟨b, w⟩ := c
  by_cases h : a = b
  · subst h; simp [Memory.read, List.lookup]
  · simp [Memory.read, List.lookup, h, beq_eq_false_iff_ne.mpr h]

theorem Memory.read_insert (m : Memory) (a b : Nat) (v : Byte) :
    (Memory.insert a v m).read b = if b = a then v else m.read b := by
  induction m with
  | nil => simp [Memory.insert, Memory.read_cons]
  | cons c m ih =>
    unfold Memory.insert
    split
    · simp [Memory.read_cons]
    · split
      · rename_i h; subst h; simp only [Memory.read_cons]; split <;> simp_all
      · simp only [Memory.read_cons, ih]; split <;> split <;> simp_all

theorem Memory.read_erase (m : Memory) (a b : Nat) :
    Memory.read (m.filter fun c => c.1 != a) b = if b = a then Memory.unlisted else m.read b := by
  induction m with
  | nil => simp
  | cons c m ih =>
    by_cases h : c.1 = a
    · simp only [List.filter_cons, h, bne_self_eq_false, Memory.read_cons]
      split <;> simp_all
    · simp only [List.filter_cons, bne_iff_ne.mpr h, ↓reduceIte, Memory.read_cons, ih]
      split <;> split <;> simp_all

/-- A read after a write, at the written cell or any other; no form of `m` is assumed. -/
theorem Memory.read_write (m : Memory) (a b : Nat) (v : Byte) :
    (m.write a v).read b = if b = a then v else m.read b := by
  unfold Memory.write
  split
  · rename_i h; rw [Memory.read_erase, h]
  · exact Memory.read_insert m a b v

@[simp] theorem Memory.read_write_self (m : Memory) (a : Nat) (v : Byte) :
    (m.write a v).read a = v := by simp [Memory.read_write]

theorem Memory.read_write_other (m : Memory) (a b : Nat) (v : Byte) (h : b ≠ a) :
    (m.write a v).read b = m.read b := by simp [Memory.read_write, h]

theorem Memory.wf_iff (m : Memory) :
    m.wf = true ↔ m.Pairwise (fun c d => c.1 < d.1) ∧ ∀ c ∈ m, c.2 ≠ Memory.unlisted := by
  simp [Memory.wf]

theorem Memory.mem_insert (m : Memory) (a : Nat) (v : Byte) (c : Host.Cell)
    (h : c ∈ Memory.insert a v m) : c = (a, v) ∨ c ∈ m := by
  induction m with
  | nil => simpa [Memory.insert] using h
  | cons d m ih =>
    unfold Memory.insert at h
    split at h
    · simpa using h
    · split at h
      · rcases List.mem_cons.mp h with h | h
        · exact .inl h
        · exact .inr (List.mem_cons_of_mem _ h)
      · rcases List.mem_cons.mp h with h | h
        · exact .inr (by simp [h])
        · exact (ih h).imp id (List.mem_cons_of_mem _)

theorem Memory.pairwise_insert (m : Memory) (a : Nat) (v : Byte)
    (h : m.Pairwise fun c d => c.1 < d.1) :
    (Memory.insert a v m).Pairwise fun c d => c.1 < d.1 := by
  induction m with
  | nil => simp [Memory.insert]
  | cons d m ih =>
    obtain ⟨hd, hm⟩ := List.pairwise_cons.mp h
    unfold Memory.insert
    split
    · rename_i hlt
      refine List.pairwise_cons.mpr ⟨fun c hc => ?_, h⟩
      rcases List.mem_cons.mp hc with rfl | hc
      · exact hlt
      · exact lt_trans hlt (hd c hc)
    · split
      · rename_i heq
        exact List.pairwise_cons.mpr ⟨fun c hc => by simpa [heq] using hd c hc, hm⟩
      · rename_i hlt hne
        refine List.pairwise_cons.mpr ⟨fun c hc => ?_, ih hm⟩
        rcases Memory.mem_insert m a v c hc with rfl | hc
        · simp only; omega
        · exact hd c hc

/-- A write keeps the canonical form. -/
theorem Memory.wf_write (m : Memory) (a : Nat) (v : Byte) (h : m.wf = true) :
    (m.write a v).wf = true := by
  rw [Memory.wf_iff] at h ⊢
  unfold Memory.write
  split
  · exact ⟨h.1.sublist List.filter_sublist, fun c hc => h.2 c (List.mem_filter.mp hc).1⟩
  · rename_i hv
    refine ⟨Memory.pairwise_insert m a v h.1, fun c hc => ?_⟩
    rcases Memory.mem_insert m a v c hc with rfl | hc
    · exact hv
    · exact h.2 c hc

/-- A write lists no cell but the written one beyond those listed before. -/
theorem Memory.mem_write (m : Memory) (a : Nat) (v : Byte) (c : Host.Cell)
    (h : c ∈ m.write a v) : c.1 = a ∨ c ∈ m := by
  unfold Memory.write at h
  split at h
  · exact .inr (List.mem_filter.mp h).1
  · rcases Memory.mem_insert m a v c h with rfl | h
    · exact .inl rfl
    · exact .inr h

/-- Loading an image keeps the canonical form. -/
theorem Memory.wf_loadFrom (bs : List Byte) (m : Memory) (a : Nat) (h : m.wf = true) :
    (m.loadFrom a bs).wf = true := by
  induction bs generalizing m a with
  | nil => exact h
  | cons b bs ih => exact ih _ _ (Memory.wf_write m a b h)

/-- Loading an image lists no cell outside it beyond those listed before. -/
theorem Memory.mem_loadFrom (bs : List Byte) (m : Memory) (a : Nat) (c : Host.Cell)
    (h : c ∈ m.loadFrom a bs) : (a ≤ c.1 ∧ c.1 < a + bs.length) ∨ c ∈ m := by
  induction bs generalizing m a with
  | nil => exact .inr h
  | cons b bs ih =>
    rcases ih _ _ h with h | h
    · left; simp only [List.length_cons]; omega
    · rcases Memory.mem_write m a b c h with h | h
      · left; simp only [List.length_cons]; omega
      · exact .inr h

/-- A read after loading an image at `a`. -/
theorem Memory.read_loadFrom (bs : List Byte) (m : Memory) (a x : Nat) :
    (m.loadFrom a bs).read x =
      if a ≤ x ∧ x < a + bs.length then bs.getD (x - a) 0#8 else m.read x := by
  induction bs generalizing m a with
  | nil => simp [Memory.loadFrom]
  | cons b bs ih =>
    rw [Memory.loadFrom, ih, Memory.read_write]
    by_cases h1 : x = a
    · subst h1; simp
    · by_cases h2 : a + 1 ≤ x ∧ x < a + 1 + bs.length
      · have h3 : a ≤ x ∧ x < a + (b :: bs).length := by
          simp only [List.length_cons]; omega
        obtain ⟨k, hk⟩ : ∃ k, x - a = k + 1 := ⟨x - a - 1, by omega⟩
        have hk' : x - (a + 1) = k := by omega
        rw [if_pos h2, if_pos h3, hk, hk', List.getD_cons_succ]
      · have h3 : ¬(a ≤ x ∧ x < a + (b :: bs).length) := by
          simp only [List.length_cons]; omega
        rw [if_neg h2, if_neg h3, if_neg h1]

/-- Placing code keeps the canonical form and the bounds, and changes nothing but memory. -/
theorem State.placeBytes_spec (bs : List Byte) (s : State) (a : Nat) :
    ∃ m, s.placeBytes a bs = { s with mem := m } ∧ (s.mem.wf = true → m.wf = true) ∧
      ((∀ c ∈ s.mem, c.1 < s.memSize) → ∀ c ∈ m, c.1 < s.memSize) := by
  induction bs generalizing s a with
  | nil => exact ⟨s.mem, rfl, id, id⟩
  | cons b bs ih =>
    by_cases h : a < s.memSize
    · obtain ⟨m, hm, hw, hb⟩ := ih { s with mem := s.mem.write a b } (a + 1)
      refine ⟨m, by simp only [State.placeBytes, if_pos h]; exact hm,
        fun hs => hw (Memory.wf_write _ _ _ hs), fun hs => hb fun c hc => ?_⟩
      rcases Memory.mem_write _ _ _ _ hc with hc | hc
      · rw [hc]; exact h
      · exact hs c hc
    · obtain ⟨m, hm, hw, hb⟩ := ih s (a + 1)
      exact ⟨m, by simp only [State.placeBytes, if_neg h]; exact hm, hw, hb⟩

end Sys2Proof.Machine
end

