-- ==== Sys2Proof/Laws/Ops.lean ====
section
/-! SUPPORT. One lemma for each shared operation that says once everything it can do. -/

namespace Sys2Proof.Machine

theorem checkReg_valid (i : Byte) (h : i.toNat < 8) : checkReg i = .ok ⟨i.toNat, h⟩ := by
  simp [checkReg, h]

theorem checkReg_invalid (i : Byte) (h : 8 ≤ i.toNat) :
    checkReg i = .error (.invalidRegister i) := by
  simp [checkReg, Nat.not_lt.mpr h]

/-- A register index byte names a register, or raises InvalidRegister. -/
theorem checkReg_cases (i : Byte) :
    (∃ j : Fin 8, i.toNat = j.val ∧ checkReg i = .ok j) ∨
      (8 ≤ i.toNat ∧ checkReg i = .error (.invalidRegister i)) := by
  by_cases h : i.toNat < 8
  · exact .inl ⟨⟨i.toNat, h⟩, rfl, checkReg_valid i h⟩
  · exact .inr ⟨Nat.not_lt.mp h, checkReg_invalid i (Nat.not_lt.mp h)⟩

/-- A memory read gives the cell, or raises OutOfBounds. -/
theorem State.memRead_cases (s : State) (a : Addr) :
    (a.toNat < s.memSize ∧ s.memRead a = .ok (s.mem.read a.toNat)) ∨
      (s.memSize ≤ a.toNat ∧ s.memRead a = .error (.outOfBounds a)) := by
  by_cases h : a.toNat < s.memSize
  · exact .inl ⟨h, if_pos h⟩
  · exact .inr ⟨Nat.not_lt.mp h, if_neg h⟩

/-- A memory write writes the one cell, or raises OutOfBounds. -/
theorem State.memWrite_cases (s : State) (a : Addr) (v : Byte) :
    (a.toNat < s.memSize ∧ s.memWrite a v = .ok { s with mem := s.mem.write a.toNat v }) ∨
      (s.memSize ≤ a.toNat ∧ s.memWrite a v = .error (.outOfBounds a)) := by
  by_cases h : a.toNat < s.memSize
  · exact .inl ⟨h, if_pos h⟩
  · exact .inr ⟨Nat.not_lt.mp h, if_neg h⟩

@[simp] theorem State.commit_ok (s t : State) (n : Nat) :
    s.commit n (.ok t) = .next (t.advance n) := rfl

@[simp] theorem State.commit_error (s : State) (n : Nat) (e : Fault) :
    s.commit n (.error e) = .next (s.takeError e) := rfl

/-- An instruction's end is always a next state: its writes with PC advanced, or the error taken. -/
theorem State.commit_cases (s : State) (n : Nat) (w : Except Fault State) :
    (∃ t, w = .ok t ∧ s.commit n w = .next (t.advance n)) ∨
      (∃ e, w = .error e ∧ s.commit n w = .next (s.takeError e)) := by
  cases w with
  | ok t => exact .inl ⟨t, rfl, rfl⟩
  | error e => exact .inr ⟨e, rfl, rfl⟩

@[simp] theorem stackAddr_toNat (sp : Byte) : (stackAddr sp).toNat = sp.toNat := by
  simp only [stackAddr, BitVec.toNat_setWidth]
  exact Nat.mod_eq_of_lt (lt_trans sp.isLt (by decide))

theorem aluMul_toNat (x y : Byte) : (aluMul x y).toNat = x.toNat * y.toNat := by
  have h : x.toNat * y.toNat ≤ 255 * 255 :=
    Nat.mul_le_mul (Nat.le_of_lt_succ x.isLt) (Nat.le_of_lt_succ y.isLt)
  simp only [aluMul, BitVec.toNat_ofNat]
  exact Nat.mod_eq_of_lt (by omega)

theorem aluMul_bound (x y : Byte) : (aluMul x y).toNat ≤ 65025 := by
  rw [aluMul_toNat]
  exact Nat.mul_le_mul (Nat.le_of_lt_succ x.isLt) (Nat.le_of_lt_succ y.isLt)

theorem spInc_spDec (x : Byte) : spInc (spDec x) = x := by simp [spInc, spDec]

end Sys2Proof.Machine
end

