-- ==== Sys2Proof/Laws/Exec.lean ====
section
/-! SUPPORT. Everything an instruction and a step can do, said once as an inversion lemma each. -/

namespace Sys2Proof.Machine

/-- The writes a completing instruction collects, before PC advances: `Writes i s t` says that `t`
is `s` with them. -/
inductive Writes : Instr → State → State → Prop where
  | ldi {r v : Byte} {s : State} {j : Fin 8} (hr : r.toNat = j.val) :
      Writes (.ldi r v) s (s.setReg j v)
  | prn {r : Byte} {s : State} {j : Fin 8} (hr : r.toNat = j.val) :
      Writes (.prn r) s (s.emit (.print (s.getReg j)))
  | mul {a b : Byte} {s : State} {j k : Fin 8} (ha : a.toNat = j.val) (hb : b.toNat = k.val) :
      Writes (.mul a b) s (s.emit (.mulResult (aluMul (s.getReg j) (s.getReg k))))
  | push {r : Byte} {s : State} {j : Fin 8} (hr : r.toNat = j.val)
      (hm : (pushAddr s).toNat < s.memSize) :
      Writes (.push r) s (State.setReg
        { s with mem := s.mem.write (pushAddr s).toNat (pushValue j s) } spIndex (spDec s.sp))
  | pop {r : Byte} {s : State} {j : Fin 8} (hr : r.toNat = j.val)
      (hm : (popAddr s).toNat < s.memSize) :
      Writes (.pop r) s ((s.setReg j (s.mem.read (popAddr s).toNat)).setReg spIndex
        (spInc (s.setReg j (s.mem.read (popAddr s).toNat)).sp))

/-- The error an instruction raises once its bytes are fetched (60_exceptions.md R161, R164). -/
inductive Raises : Instr → State → Fault → Prop where
  | ldi {r v : Byte} {s : State} (h : 8 ≤ r.toNat) : Raises (.ldi r v) s (.invalidRegister r)
  | prn {r : Byte} {s : State} (h : 8 ≤ r.toNat) : Raises (.prn r) s (.invalidRegister r)
  | mulFirst {a b : Byte} {s : State} (h : 8 ≤ a.toNat) : Raises (.mul a b) s (.invalidRegister a)
  | mulSecond {a b : Byte} {s : State} (ha : a.toNat < 8) (h : 8 ≤ b.toNat) :
      Raises (.mul a b) s (.invalidRegister b)
  | push {r : Byte} {s : State} (h : 8 ≤ r.toNat) : Raises (.push r) s (.invalidRegister r)
  | pushMem {r : Byte} {s : State} (hr : r.toNat < 8) (h : s.memSize ≤ (pushAddr s).toNat) :
      Raises (.push r) s (.outOfBounds (pushAddr s))
  | pop {r : Byte} {s : State} (h : 8 ≤ r.toNat) : Raises (.pop r) s (.invalidRegister r)
  | popMem {r : Byte} {s : State} (hr : r.toNat < 8) (h : s.memSize ≤ (popAddr s).toNat) :
      Raises (.pop r) s (.outOfBounds (popAddr s))

/-- An instruction halts, completes with its writes, or takes the error it raises. -/
theorem exec_cases (i : Instr) (s : State) :
    (i = .hlt ∧ exec i s = .next s.halt) ∨
      (∃ t, Writes i s t ∧ exec i s = .next (t.advance i.length)) ∨
      (∃ e, Raises i s e ∧ exec i s = .next (s.takeError e)) := by
  cases i with
  | hlt => exact .inl ⟨rfl, rfl⟩
  | ldi r v =>
    right
    rcases checkReg_cases r with ⟨j, hj, hc⟩ | ⟨hj, hc⟩
    · exact .inl ⟨_, .ldi hj, by simp only [exec, execLdi, hc]; rfl⟩
    · exact .inr ⟨_, .ldi hj, by simp only [exec, execLdi, hc]; rfl⟩
  | prn r =>
    right
    rcases checkReg_cases r with ⟨j, hj, hc⟩ | ⟨hj, hc⟩
    · exact .inl ⟨_, .prn hj, by simp only [exec, execPrn, hc]; rfl⟩
    · exact .inr ⟨_, .prn hj, by simp only [exec, execPrn, hc]; rfl⟩
  | mul a b =>
    right
    rcases checkReg_cases a with ⟨j, hj, hc⟩ | ⟨hj, hc⟩
    · rcases checkReg_cases b with ⟨k, hk, hd⟩ | ⟨hk, hd⟩
      · exact .inl ⟨_, .mul hj hk, by simp only [exec, execMul, hc, hd]; rfl⟩
      · exact .inr ⟨_, .mulSecond (by omega) hk, by simp only [exec, execMul, hc, hd]; rfl⟩
    · exact .inr ⟨_, .mulFirst hj, by simp only [exec, execMul, hc]; rfl⟩
  | push r =>
    right
    rcases checkReg_cases r with ⟨j, hj, hc⟩ | ⟨hj, hc⟩
    · rcases s.memWrite_cases (pushAddr s) (pushValue j s) with ⟨hm, hw⟩ | ⟨hm, hw⟩
      · exact .inl ⟨_, .push hj hm, by simp only [exec, execPush, hc]; simp only [bind, Except.bind, hw]; rfl⟩
      · exact .inr ⟨_, .pushMem (by omega) hm,
          by simp only [exec, execPush, hc]; simp only [bind, Except.bind, hw]; rfl⟩
    · exact .inr ⟨_, .push hj, by simp only [exec, execPush, hc]; rfl⟩
  | pop r =>
    right
    rcases checkReg_cases r with ⟨j, hj, hc⟩ | ⟨hj, hc⟩
    · rcases s.memRead_cases (popAddr s) with ⟨hm, hw⟩ | ⟨hm, hw⟩
      · exact .inl ⟨_, .pop hj hm, by simp only [exec, execPop, hc]; simp only [bind, Except.bind, hw]; rfl⟩
      · exact .inr ⟨_, .popMem (by omega) hm,
          by simp only [exec, execPop, hc]; simp only [bind, Except.bind, hw]; rfl⟩
    · exact .inr ⟨_, .pop hj, by simp only [exec, execPop, hc]; rfl⟩

/-- The opcode table read backwards. -/
theorem opcodeOf_eq_some (b : Byte) (o : Opcode) : opcodeOf b = some o ↔
    (b = 0x82#8 ∧ o = .ldi) ∨ (b = 0x47#8 ∧ o = .prn) ∨ (b = 0x01#8 ∧ o = .hlt) ∨
      (b = 0xA2#8 ∧ o = .mul) ∨ (b = 0x45#8 ∧ o = .push) ∨ (b = 0x46#8 ∧ o = .pop) := by
  unfold opcodeOf
  split_ifs <;> subst_vars <;> cases o <;> simp_all

/-- The code window, byte by byte: it ends where memory ends. -/
theorem State.codeWindow_cases (s : State) :
    let p := s.pc.toNat
    (s.memSize ≤ p ∧ s.codeWindow = []) ∨
      (p + 1 = s.memSize ∧ s.codeWindow = [s.mem.read p]) ∨
      (p + 2 = s.memSize ∧ s.codeWindow = [s.mem.read p, s.mem.read (p + 1)]) ∨
      (p + 2 < s.memSize ∧
        s.codeWindow = [s.mem.read p, s.mem.read (p + 1), s.mem.read (p + 2)]) := by
  intro p
  by_cases h0 : p < s.memSize
  · by_cases h1 : p + 1 < s.memSize
    · by_cases h2 : p + 2 < s.memSize
      · exact .inr (.inr (.inr ⟨h2, by simp [State.codeWindow, State.bytesFrom, p, h0, h1, h2]⟩))
      · exact .inr (.inr (.inl ⟨by omega, by simp [State.codeWindow, State.bytesFrom, p, h0, h1, h2]⟩))
    · exact .inr (.inl ⟨by omega, by simp [State.codeWindow, State.bytesFrom, p, h0, h1]⟩)
  · exact .inl ⟨by omega, by simp [State.codeWindow, State.bytesFrom, p, h0]⟩

/-- What a fetch gives, from the bytes of memory and the end of memory alone. -/
theorem State.fetch_cases (s : State) :
    let p := s.pc.toNat
    (s.memSize ≤ p ∧ s.fetch = .raised (.outOfBounds s.pc)) ∨
      (p < s.memSize ∧ opcodeOf (s.mem.read p) = none ∧ s.fetch = .unassigned (s.mem.read p)) ∨
      (∃ o k, p < s.memSize ∧ opcodeOf (s.mem.read p) = some o ∧ 1 ≤ k ∧ k ≤ o.operands ∧
        p + k = s.memSize ∧ s.fetch = .raised (.outOfBounds (s.pc + BitVec.ofNat 9 k))) ∨
      (∃ i rest, p + i.length ≤ s.memSize ∧ decode s.codeWindow = .ok (i, rest) ∧
        s.fetch = .instr i) := by
  intro p
  rcases s.codeWindow_cases with ⟨h, hw⟩ | ⟨h, hw⟩ | ⟨h, hw⟩ | ⟨h, hw⟩
  · exact .inl ⟨h, by simp only [State.fetch, hw, decode]⟩
  all_goals
    right
    rcases ho : opcodeOf (s.mem.read p) with _ | o
    · exact .inl ⟨by omega, rfl, by simp only [p] at ho; simp only [State.fetch, hw, decode, p, ho]⟩
    · right
      simp only [p] at ho
      simp only [State.fetch, hw, decode, ho]
      cases o <;> simp only [decodeOperands, decodeTwo, decodeOne] <;> first
        | exact .inl ⟨_, 1, by omega, rfl, by decide, by decide, h, rfl⟩
        | exact .inl ⟨_, 2, by omega, rfl, by decide, by decide, h, rfl⟩
        | exact .inr ⟨_, _, by simp only [Instr.length]; omega, rfl, rfl⟩

/-- A step on a stopped core, a step that takes the fetch's error, a halt at an unassigned byte, or
the instruction fetched. -/
theorem step_cases (s : State) :
    (s.status ≠ .running ∧ step s = .next s) ∨
      (s.status = .running ∧
        ((∃ e, s.fetch = .raised e ∧ step s = .next (s.takeError e)) ∨
          (∃ b, s.fetch = .unassigned b ∧ step s = .next (s.haltUnknown b)) ∨
          (∃ i, s.fetch = .instr i ∧ step s = exec i s))) := by
  by_cases h : s.status = .running
  · refine .inr ⟨h, ?_⟩
    rcases hf : s.fetch with i | b | e
    · exact .inr (.inr ⟨i, rfl, by simp [step, h, hf]⟩)
    · exact .inr (.inl ⟨b, rfl, by simp [step, h, hf]⟩)
    · exact .inl ⟨e, rfl, by simp [step, h, hf]⟩
  · exact .inl ⟨h, by simp [step, h]⟩

end Sys2Proof.Machine
end

