-- ==== Sys2Proof/Laws/PerInstr.lean ====
section
/-! SUPPORT. Facts of the syntax, one lemma per constructor (LAWS.json, per_instruction). -/

namespace Sys2Proof.Laws

/-- An instruction's bytes are its opcode byte and its operands, as many as the opcode table gives,
and its length counts them (30_encoding.md R77, R80). -/
def EncodeShape.Statement (i : Instr) : Prop :=
  ∃ op operands o, encode i = op :: operands ∧ opcodeOf op = some o ∧
    operands.length = o.operands ∧ i.length = 1 + o.operands

theorem EncodeShape.ldi (r v : Byte) : EncodeShape.Statement (.ldi r v) :=
  ⟨_, _, .ldi, rfl, rfl, rfl, rfl⟩

theorem EncodeShape.prn (r : Byte) : EncodeShape.Statement (.prn r) :=
  ⟨_, _, .prn, rfl, rfl, rfl, rfl⟩

theorem EncodeShape.hlt : EncodeShape.Statement .hlt :=
  ⟨_, _, .hlt, rfl, rfl, rfl, rfl⟩

theorem EncodeShape.mul (a b : Byte) : EncodeShape.Statement (.mul a b) :=
  ⟨_, _, .mul, rfl, rfl, rfl, rfl⟩

theorem EncodeShape.push (r : Byte) : EncodeShape.Statement (.push r) :=
  ⟨_, _, .push, rfl, rfl, rfl, rfl⟩

theorem EncodeShape.pop (r : Byte) : EncodeShape.Statement (.pop r) :=
  ⟨_, _, .pop, rfl, rfl, rfl, rfl⟩

end Sys2Proof.Laws
end

