-- ==== Sys2Proof/Tests/Slice0.lean ====
section
/-! SUPPORT. Tests with expected results from spec/95_test_vectors.md (named in each comment), decode
tests written out from 30_encoding.md R80, the WellFormed smoke test, and a witness for the
hypotheses of every obligation that has some. -/

namespace Sys2Proof.Tests

open Sys2Proof.Machine

/-! ## WellFormed refuses a bad register operand, one term per check -/

theorem test_wf_refuses_ldi : (Instr.ldi 8 0).wf = false := by decide
theorem test_wf_refuses_prn : (Instr.prn 255).wf = false := by decide
theorem test_wf_refuses_mul_first : (Instr.mul 8 0).wf = false := by decide
theorem test_wf_refuses_mul_second : (Instr.mul 0 8).wf = false := by decide
theorem test_wf_refuses_push : (Instr.push 8).wf = false := by decide
theorem test_wf_refuses_pop : (Instr.pop 8).wf = false := by decide
theorem test_wf_accepts : (Instr.mul 7 0).wf = true ∧ Instr.hlt.wf = true := by decide

/-! ## Decoding, from the bytes of 30_encoding.md R80 and R88 -/

theorem test_decode_ldi : decode [0b10000010, 3, 200] = .ok (.ldi 3 200, []) := by decide
theorem test_decode_prn : decode [0b01000111, 7] = .ok (.prn 7, []) := by decide
theorem test_decode_hlt : decode [0b00000001, 9] = .ok (.hlt, [9]) := by decide
theorem test_decode_mul : decode [0b10100010, 1, 2] = .ok (.mul 1 2, []) := by decide
theorem test_decode_push : decode [0b01000101, 0] = .ok (.push 0, []) := by decide
theorem test_decode_pop : decode [0b01000110, 255] = .ok (.pop 255, []) := by decide
theorem test_decode_unassigned : decode [0x00, 1, 2] = .error (.unassigned 0) := by decide
theorem test_decode_cut_short : decode [0x82, 1] = .error (.missingOperand 2) := by decide
theorem test_table_word_short : decodeTableWord 8 0x82 = some (.ldi 0 0) := by decide
theorem test_table_word_whole : decodeTableWord 24 0x0201A2 = some (.mul 1 2) := by decide

/-! ## One step, from the spec's vectors -/

/-- A running core of the given last address, with registers, PC and code at PC. -/
def start (lastAddr : Fin 256) (regs : Vector Byte 8) (pc : Addr) (code : List Byte) : State :=
  State.withCode { State.resetAt lastAddr with regs := regs, pc := pc } code

/-- All registers 0. -/
def zeros : Vector Byte 8 := Vector.replicate 8 0

/-- The state after one step, STATUS, FAULT_INFO and PC only. -/
def stopOf (s : State) : Status × FaultInfo × Addr :=
  (s.stepped.status, s.stepped.faultInfo, s.stepped.pc)

/-- Vector LD2. -/
theorem test_ldi_stack_pointer :
    let t := (start 254 zeros 0 [0x82, 7, 0xFF]).stepped
    t.getReg 7 = 255 ∧ t.pc = 3 := by decide

/-- Vector LD7: out of bounds wins over the invalid register. -/
theorem test_ldi_cut_short :
    stopOf (start 254 zeros 253 [0x82, 9]) = (.failedOutOfBounds, .addr 255, 253) := by decide

/-- Vector PR4. -/
theorem test_prn_stack_pointer :
    let t := (start 254 #v[0, 0, 0, 0, 0, 0, 0, 200] 0 [0x47, 7]).stepped
    t.out = [.print 200] ∧ t.getReg 7 = 200 ∧ t.pc = 2 := by decide

/-- Vector PR5. -/
theorem test_prn_invalid_register :
    stopOf (start 254 zeros 0 [0x47, 8]) = (.failedInvalidRegister, .reg 8, 0) := by decide

/-- Vector DS4: HLT in the last cell. -/
theorem test_hlt_last_cell :
    stopOf (start 254 zeros 254 [0x01]) = (.halted, .none, 254) := by decide

/-- Vector M2. -/
theorem test_mul_exact :
    (start 254 #v[0, 0, 255, 255, 0, 0, 0, 0] 0 [0xA2, 2, 3]).stepped.out = [.mulResult 65025] := by
  decide

/-- Vector M6: the first operand is checked first. -/
theorem test_mul_first_operand_first :
    stopOf (start 254 zeros 0 [0xA2, 9, 8]) = (.failedInvalidRegister, .reg 9, 0) := by decide

/-- Vector S3. -/
theorem test_push_stack_pointer :
    let t := (start 254 #v[0, 0, 0, 0, 0, 0, 0, 100] 0 [0x45, 7]).stepped
    t.mem.read 99 = 99 ∧ t.getReg 7 = 99 := by decide

/-- Vector S4. -/
theorem test_push_from_reset :
    stopOf (start 254 zeros 0 [0x45, 0]) = (.failedOutOfBounds, .addr 255, 0) := by decide

/-- Vector S6. -/
theorem test_pop_stack_pointer :
    let s := start 254 #v[0, 0, 0, 0, 0, 0, 0, 99] 0 [0x46, 7]
    (State.stepped { s with mem := s.mem.write 99 99 }).getReg 7 = 100 := by decide

/-- Vector S8: the pointer wraps with 256 cells. -/
theorem test_pop_wraps :
    let s := start 255 #v[0, 0, 0, 0, 0, 0, 0, 255] 0 [0x46, 0]
    let t := State.stepped { s with mem := s.mem.write 255 0x77 }
    t.getReg 0 = 0x77 ∧ t.getReg 7 = 0 := by decide

/-- Vector DS5. -/
theorem test_unassigned_byte :
    stopOf (start 254 zeros 3 [0xFF]) = (.haltedUnknownOpcode, .opcode 0xFF, 3) := by decide

/-- Vector DS7. -/
theorem test_fetch_past_256_cells :
    stopOf (start 255 zeros 256 []) = (.failedOutOfBounds, .addr 256, 256) := by decide

/-- The host's placing of a table word: the next step runs it. -/
theorem test_fetch_word_runs :
    (State.reset.withFetchWord 24 0x080082).stepped.getReg 0 = 8 := by decide

/-! ## The ports and the boundary -/

/-- Vector AL2. -/
theorem test_alu_wraps :
    let s := State.call { State.reset with regs := #v[200, 100, 0, 0, 0, 0, 0, 0] } (.alu .add 0 1)
    s.1 = .ok ∧ s.2.getReg 0 = 44 := by decide

/-- Vector AL6: the selector is tested before the indices. -/
theorem test_alu_unsupported :
    let s := State.reset.call (.alu (.other 1) 9 9)
    s.1 = .err (.unsupportedOperation (.other 1)) ∧
      s.2.status = .failedUnsupportedOperation := by decide

/-- Vector HP3. -/
theorem test_load_keeps_the_rest :
    let s := (State.reset.call (.load [9, 9, 9])).2
    (s.call (.load [1, 2])).2.mem = [(0, 1), (1, 2), (2, 9)] := by decide

/-- Vector HP10. -/
theorem test_trace_absent : ((start 254 zeros 254 [0x01]).call .trace).1 =
    .traced ⟨254, #v[some 0x01, none, none], zeros⟩ := by decide

/-- Writing 0 removes the cell, so equal memories are equal data (the canonical form). -/
theorem test_write_zero_removes : Memory.write [(3, 7), (5, 1)] 3 0 = [(5, 1)] := by decide

/-- The status codes of 10_state.md R31, in its order, and two exit codes of 60_exceptions.md R175. -/
theorem test_status_and_exit_codes :
    [Status.running, .halted, .haltedUnknownOpcode, .failedOutOfBounds, .failedInvalidRegister,
      .failedUnsupportedOperation].map Status.code = [0, 1, 2, 3, 4, 5] ∧
    exitCode (.ran .haltedUnknownOpcode) = some 0 ∧ exitCode .fileNotFound = some 2 := by decide

/-- Vectors W6, W7: the two text lines. -/
theorem test_event_text : (OutEvent.print 8).text = "Value = 8" ∧
    (OutEvent.mulResult 27).text = "Multiplying operation result: 27" := by decide

/-- Vector W9 and the example of 30_encoding.md R86, its first lines. -/
theorem test_image_text :
    imageOfText "10000010 # LDI R0,8\n\n # note\n00000000\n  00001000 ".toList =
      .ok [0x82, 0, 8] := by decide

/-- 30_encoding.md R87. -/
theorem test_image_above_byte : imageOfText "100000000".toList = .error (.aboveByte 256) := by decide

/-- 30_encoding.md R88, its example of a raw byte. -/
theorem test_assembly_text : assemblyText (.ldi 8 5) = "LDI 0x08, 5" ∧
    assemblyText (.mul 0 1) = "MUL R0, R1" := by decide

/-- The outcome is the next state `t`, as a test that runs. -/
def answers (o : StepResult) (t : State) : Bool :=
  match o with
  | .next u => decide (u = t)
  | .fault _ => false
  | .refused _ => false

theorem test_answers_iff (o : StepResult) (t : State) : answers o t = true ↔ o = .next t := by
  cases o <;> simp [answers]

/-! ## Witnesses: every hypothesis of an obligation is met by a concrete state and operands -/

/-- DecodeRejectsByName: one input for each of its three clauses. -/
theorem test_witness_DecodeRejectsByName : opcodeOf 0x44 = none ∧
    (opcodeOf 0xA2 = some .mul ∧ [(3 : Byte)].length < Opcode.mul.operands) ∧
    (opcodeOf 0x46 = some .pop ∧ Opcode.pop.operands ≤ [(3 : Byte)].length) := by decide

theorem test_witness_OpcodeBitsMirrorOperandCount : opcodeOf 0xA2 = some .mul := by decide

/-- StepRunsTheDecodedInstruction, LdiLawHoldsOfTheStep and RunStepsUntilStopped's running case:
an LDI whose last byte is in the last cell. -/
theorem test_witness_StepRunsTheDecodedInstruction :
    let s := start 254 zeros 252 [0x82, 7, 255]
    s.status = .running ∧ Pseudocode.codeAt s s.pc.toNat (encode (.ldi 7 255)) ∧
      (7 : Byte).toNat < 8 := by
  unfold Pseudocode.codeAt; decide

/-- StoppedCoreStepChangesNothing, PcMovesOnlyByInstructionLength (a stopped core, and a port that
is not reset, step or run) and OnlyResetRestarts. -/
theorem test_witness_StoppedCoreStepChangesNothing :
    State.reset.halt.status ≠ .running ∧ answers (step State.reset.halt) State.reset.halt = true ∧
      PortCall.run ≠ .reset ∧ PortCall.trace ≠ .reset ∧ PortCall.trace ≠ .step ∧
      PortCall.trace ≠ .run := by decide

theorem test_witness_OpcodeFetchPastMemoryFails :
    let s := start 254 zeros 255 []
    s.status = .running ∧ s.memSize ≤ s.pc.toNat := by decide

/-- OperandFetchPastMemoryFails: the first operand missing, and the second. -/
theorem test_witness_OperandFetchPastMemoryFails :
    (let s := start 254 zeros 254 [0x45]
     s.status = .running ∧ opcodeOf (s.mem.read s.pc.toNat) = some .push ∧
       1 ≤ Opcode.push.operands ∧ s.pc.toNat + 1 = s.memSize) ∧
    (let s := start 254 zeros 253 [0xA2, 9]
     s.status = .running ∧ opcodeOf (s.mem.read s.pc.toNat) = some .mul ∧
       2 ≤ Opcode.mul.operands ∧ s.pc.toNat + 2 = s.memSize) := by decide

theorem test_witness_UnassignedByteHalts :
    let s := start 254 zeros 254 [0xA3]
    s.status = .running ∧ s.pc.toNat < s.memSize ∧ opcodeOf (s.mem.read s.pc.toNat) = none := by
  decide

/-- FailedStepCommitsNothing and StepNeverRaisesUnsupportedOperation. -/
theorem test_witness_FailedStepCommitsNothing :
    let s := start 254 zeros 0 [0x45, 0]
    s.status = .running ∧ answers (step s) s.stepped = true ∧ s.stepped.status.failed = true := by decide

/-- PcMovesOnlyByInstructionLength: a step that completes, and one that stops. -/
theorem test_witness_PcMovesOnlyByInstructionLength :
    (let s := start 254 zeros 253 [0x47, 7]
     s.status = .running ∧ answers (step s) s.stepped = true ∧ s.stepped.status = .running) ∧
    (let s := start 254 zeros 254 [0x01]
     s.status = .running ∧ answers (step s) s.stepped = true ∧ s.stepped.status ≠ .running) := by decide

theorem test_witness_StepWritesMemoryOnlyByPush :
    let s := start 254 #v[1, 0, 0, 0, 0, 0, 0, 255] 0 [0x45, 0]
    answers (step s) s.stepped = true ∧ s.stepped.mem.read 254 ≠ s.mem.read 254 := by decide

/-- OutputIsAppendOnly: a step that appends, a PRN and a MUL. -/
theorem test_witness_OutputIsAppendOnly :
    (let s := start 254 zeros 0 [0x47, 0]
     answers (step s) s.stepped = true ∧ s.stepped.out ≠ s.out) ∧
    (let s := start 254 zeros 0 [0xA2, 0, 7]
     answers (step s) s.stepped = true ∧ s.stepped.out ≠ s.out) := by decide

/-- LdiLoadsTheImmediate, PrnPrintsTheRegister and MulEmitsTheExactProduct: the last register. -/
theorem test_witness_valid_register : (7 : Byte).toNat < 8 ∧ (7 : Byte).toNat ≤ 7 := by decide

theorem test_witness_HltHaltsInPlace :
    let s := start 0 zeros 0 [0x01]
    s.status = .running ∧ s.pc.toNat < s.memSize ∧ s.mem.read s.pc.toNat = 0x01 := by decide

/-- PushStoresBelowTheTop at the top cell, from R7 = 0 with 256 cells and R7 = 255 with 255. -/
theorem test_witness_PushStoresBelowTheTop :
    (pushAddr (start 255 zeros 0 [])).toNat < (start 255 zeros 0 []).memSize ∧
    (pushAddr (start 254 #v[0, 0, 0, 0, 0, 0, 0, 255] 0 [])).toNat = 254 := by decide

theorem test_witness_PushPastMemoryFails :
    State.reset.memSize ≤ (pushAddr State.reset).toNat := by decide

theorem test_witness_PopLoadsTheTop :
    let s := start 254 #v[0, 0, 0, 0, 0, 0, 0, 254] 0 []
    s.regs[7].toNat < s.memSize := by decide

theorem test_witness_PopPastMemoryFails :
    let s := start 254 #v[0, 0, 0, 0, 0, 0, 0, 255] 0 []
    s.memSize ≤ s.regs[7].toNat := by decide

/-- InvalidRegisterIsReported and PortsReportInvalidRegisters: the boundary of the two ranges. -/
theorem test_witness_InvalidRegisterIsReported :
    7 < (8 : Byte).toNat ∧ (7 : Byte).toNat ≤ 7 := by decide

/-- RegisterFrame and StatusAndOutputFrame: the execution answers a next state, for each form. -/
theorem test_witness_RegisterFrame :
    let s := start 254 #v[0, 0, 0, 0, 0, 0, 0, 9] 0 []
    answers (exec (.ldi 7 1) s) (s.setReg 7 1 |>.advance 3) = true ∧
    answers (exec (.prn 0) s) (s.emit (.print 0) |>.advance 2) = true ∧
    answers (exec (.mul 7 7) s) (s.emit (.mulResult 81) |>.advance 3) = true ∧
    answers (exec .hlt s) s.halt = true ∧
    answers (exec (.pop 0) s) (s.setReg 7 10 |>.advance 2) = true := by decide

/-- MemoryFrame: a PUSH that stores and one that fails. -/
theorem test_witness_MemoryFrame :
    (let s := start 254 #v[5, 0, 0, 0, 0, 0, 0, 9] 0 []
     answers (exec (.push 0) s) ({ s with mem := [(8, 5)] }.setReg 7 8 |>.advance 2)) = true ∧
    answers (exec (.push 0) State.reset) (State.reset.takeError (.outOfBounds 255)) = true ∧
    (State.reset.takeError (.outOfBounds 255)).status ≠ State.reset.status := by decide

/-- PushThenPopRestores: an ordinary register and R7. -/
theorem test_witness_PushThenPopRestores :
    (let s := start 254 #v[5, 0, 0, 0, 0, 0, 0, 255] 0 [0x45, 0, 0x46, 0]
     s.status = .running ∧ Pseudocode.codeAt s s.pc.toNat [0x45, 0, 0x46, 0] ∧
       (spDec s.sp).toNat < s.memSize ∧ (spDec s.sp).toNat ≠ s.pc.toNat + 2 ∧
       (spDec s.sp).toNat ≠ s.pc.toNat + 3) ∧
    (let s := start 254 #v[5, 0, 0, 0, 0, 0, 0, 2] 0 [0x45, 7, 0x46, 7]
     s.status = .running ∧ Pseudocode.codeAt s s.pc.toNat [0x45, 7, 0x46, 7] ∧
       (spDec s.sp).toNat < s.memSize ∧ (spDec s.sp).toNat ≠ s.pc.toNat + 2 ∧
       (spDec s.sp).toNat ≠ s.pc.toNat + 3) := by
  unfold Pseudocode.codeAt; decide

/-- PushThenPopCopies: from an ordinary register and from R7. -/
theorem test_witness_PushThenPopCopies :
    (let s := start 254 #v[5, 0, 0, 0, 0, 0, 0, 100] 0 [0x45, 0, 0x46, 6]
     (0 : Byte).toNat < 8 ∧ (6 : Byte).toNat < 7 ∧ s.status = .running ∧
       Pseudocode.codeAt s s.pc.toNat [0x45, 0, 0x46, 6] ∧ (spDec s.sp).toNat < s.memSize ∧
       (spDec s.sp).toNat ≠ s.pc.toNat + 2 ∧ (spDec s.sp).toNat ≠ s.pc.toNat + 3) ∧
    (let s := start 254 #v[5, 0, 0, 0, 0, 0, 0, 100] 0 [0x45, 7, 0x46, 0]
     (7 : Byte) ≠ 0 ∧ s.status = .running ∧
       Pseudocode.codeAt s s.pc.toNat [0x45, 7, 0x46, 0] ∧ (spDec s.sp).toNat < s.memSize ∧
       (spDec s.sp).toNat ≠ s.pc.toNat + 2 ∧ (spDec s.sp).toNat ≠ s.pc.toNat + 3) := by
  unfold Pseudocode.codeAt; decide

/-- The hypotheses of PushedCodeRunsNext on the state and the register. -/
def pushesNextOpcode (r : Byte) (s : State) : Prop :=
  r.toNat < 8 ∧ s.status = .running ∧ Pseudocode.codeAt s s.pc.toNat [0x45, r] ∧
    (spDec s.sp).toNat = s.pc.toNat + 2 ∧ (spDec s.sp).toNat < s.memSize

/-- PushedCodeRunsNext, its unassigned byte. -/
theorem test_witness_PushedCodeRunsNext_unassigned :
    let s := start 2 #v[0xFF, 0, 0, 0, 0, 0, 0, 3] 0 [0x45, 0]
    pushesNextOpcode 0 s ∧ opcodeOf (s.getReg 0) = none := by
  unfold pushesNextOpcode Pseudocode.codeAt; decide

/-- PushedCodeRunsNext, its opcode with operands: PUSH R7 at 0x44 stores its own pointer, 0x46,
which is the POP that runs next with the operand byte after it, the last in memory. -/
theorem test_witness_PushedCodeRunsNext_opcode :
    let s := start 0x47 #v[0, 0, 0, 0, 0, 0, 0, 0x47] 0x44 [0x45, 7, 0, 3]
    pushesNextOpcode 7 s ∧ (encode (.pop 3)).head? = some (spDec s.sp) ∧
      Pseudocode.codeAt s (s.pc.toNat + 3) (encode (.pop 3)).tail := by
  unfold pushesNextOpcode Pseudocode.codeAt; decide

/-- PushedCodeRunsNext, its opcode cut short: a PRN pushed into the last cell. -/
theorem test_witness_PushedCodeRunsNext_cut_short :
    let s := start 2 #v[0x47, 0, 0, 0, 0, 0, 0, 3] 0 [0x45, 0]
    pushesNextOpcode 0 s ∧ opcodeOf (s.getReg 0) = some .prn ∧ 1 ≤ Opcode.prn.operands ∧
      s.pc.toNat + 2 + 1 = s.memSize := by
  unfold pushesNextOpcode Pseudocode.codeAt; decide

/-- LoadCopiesOrRefuses and CleanLaunchState: an image that fills memory, and one a byte larger. -/
theorem test_witness_LoadCopiesOrRefuses :
    [(1 : Byte), 2].length ≤ (State.resetAt 1).memSize ∧
    (State.resetAt 1).memSize < [(1 : Byte), 2, 3].length := by decide

/-- MemoryPortsReadWhatWasWritten: the first address out of bounds, and the last in bounds. -/
theorem test_witness_MemoryPortsReadWhatWasWritten :
    State.reset.memSize ≤ (255 : Addr).toNat ∧ (254 : Addr).toNat < State.reset.memSize ∧
      (253 : Addr) ≠ 254 := by decide

theorem test_witness_RegisterPortsReadWhatWasWritten :
    (7 : Byte).toNat < 8 ∧ (8 : Byte) ≠ 7 := by decide

/-- FailedRunIsAFaultOutcome, EveryStepKeepsTheInvariant and EveryPortCallKeepsTheInvariant: a state
that meets the invariant with memory and OUT not empty, whose run fails. -/
theorem test_witness_invariant_and_failed_run :
    let s : State := { start 254 zeros 0 [0x45, 0] with out := [.mulResult 65025] }
    s.Inv ∧ answers (step s) s.stepped = true ∧ (s.call .run).2.status.failed = true := by
  refine ⟨⟨by decide, by decide, by decide, by decide, fun p hp => ?_⟩, by decide, by decide⟩
  simp only [List.mem_singleton, OutEvent.mulResult.injEq] at hp
  subst hp; decide

/-- FailedRunIsAFaultOutcome's other clause: a run that does not fail. -/
theorem test_witness_graceful_run :
    ((start 254 zeros 0 [0x01]).call .run).2.status.failed = false := by decide

theorem test_witness_CanonicalMemoriesThatReadAlikeAreEqual :
    Memory.wf [(0, 1), (255, 9)] = true := by decide

end Sys2Proof.Tests
end

section
/-! PROOFS. The bytes a fetch decodes stand at PC, and what a step of a running core leaves
(40_dispatch.md R95). -/

namespace Sys2Proof

theorem decodeOne_eq_ok {mk : Byte → Instr} {bs rest : List Byte} {i : Instr}
    (h : decodeOne mk bs = .ok (i, rest)) : ∃ r, i = mk r ∧ bs = r :: rest := by
  cases bs with
  | nil => simp [decodeOne] at h
  | cons r bs =>
    obtain ⟨rfl, rfl⟩ : mk r = i ∧ bs = rest := by simpa [decodeOne] using h
    exact ⟨r, rfl, rfl⟩

theorem decodeTwo_eq_ok {mk : Byte → Byte → Instr} {bs rest : List Byte} {i : Instr}
    (h : decodeTwo mk bs = .ok (i, rest)) : ∃ a b, i = mk a b ∧ bs = a :: b :: rest := by
  rcases bs with _ | ⟨a, _ | ⟨b, bs⟩⟩
  · simp [decodeTwo] at h
  · simp [decodeTwo] at h
  · obtain ⟨rfl, rfl⟩ : mk a b = i ∧ bs = rest := by simpa [decodeTwo] using h
    exact ⟨a, b, rfl, rfl⟩

/-- Decoding takes an instruction's bytes off the front, one case per row of the opcode table. -/
theorem eq_encode_append_of_decode {bytes rest : List Byte} {i : Instr}
    (h : decode bytes = .ok (i, rest)) : bytes = encode i ++ rest := by
  rcases bytes with _ | ⟨op, bs⟩
  · simp [decode] at h
  rcases ho : opcodeOf op with _ | o
  · simp [decode, ho] at h
  have h : decodeOperands o bs = .ok (i, rest) := by simpa only [decode, ho] using h
  rcases (Machine.opcodeOf_eq_some op o).mp ho with
    ⟨rfl, rfl⟩ | ⟨rfl, rfl⟩ | ⟨rfl, rfl⟩ | ⟨rfl, rfl⟩ | ⟨rfl, rfl⟩ | ⟨rfl, rfl⟩
  · obtain ⟨_, _, rfl, rfl⟩ := decodeTwo_eq_ok h; rfl
  · obtain ⟨_, rfl, rfl⟩ := decodeOne_eq_ok h; rfl
  · obtain ⟨rfl, rfl⟩ : Instr.hlt = i ∧ bs = rest := by simpa [decodeOperands] using h
    rfl
  · obtain ⟨_, _, rfl, rfl⟩ := decodeTwo_eq_ok h; rfl
  · obtain ⟨_, rfl, rfl⟩ := decodeOne_eq_ok h; rfl
  · obtain ⟨_, rfl, rfl⟩ := decodeOne_eq_ok h; rfl

@[simp] theorem length_encode (i : Instr) : (encode i).length = i.length := by
  cases i <;> rfl

theorem Instr.length_le_three (i : Instr) : i.length ≤ 3 := by
  cases i <;> simp [Instr.length]

end Sys2Proof

namespace Sys2Proof.Machine

theorem State.read_of_bytesFrom {s : State} {n a k : Nat} {b : Byte}
    (h : (s.bytesFrom n a)[k]? = some b) : s.mem.read (a + k) = b := by
  induction n generalizing a k with
  | zero => simp [State.bytesFrom] at h
  | succ n ih =>
    by_cases ha : a < s.memSize
    · rw [State.bytesFrom, if_pos ha] at h
      cases k with
      | zero => simpa using h
      | succ k => rw [← ih (by simpa using h)]; congr 1; omega
    · simp [State.bytesFrom, ha] at h

/-- A fetched instruction's bytes stand in memory at PC. -/
theorem State.codeAt_of_fetch {s : State} {i : Instr} (h : s.fetch = .instr i) :
    Pseudocode.codeAt s s.pc.toNat (encode i) := by
  rcases s.fetch_cases with ⟨-, hf⟩ | ⟨-, -, hf⟩ | ⟨_, _, -, -, -, -, -, hf⟩ |
    ⟨j, rest, hlen, hd, hf⟩
  · simp [h] at hf
  · simp [h] at hf
  · simp [h] at hf
  obtain rfl : i = j := by simpa [h] using hf
  have hw : s.codeWindow = encode i ++ rest := eq_encode_append_of_decode hd
  refine ⟨by simpa using hlen, fun k hk => State.read_of_bytesFrom (n := 3) ?_⟩
  rw [← State.codeWindow, hw, List.getElem?_append_left hk, List.getElem?_eq_getElem hk]

theorem Writes.pc_eq {i : Instr} {s w : State} (h : Writes i s w) : w.pc = s.pc := by
  cases h <;> rfl

theorem Writes.status_eq {i : Instr} {s w : State} (h : Writes i s w) : w.status = s.status := by
  cases h <;> rfl

theorem Writes.ne_hlt {i : Instr} {s w : State} (h : Writes i s w) : i ≠ .hlt := by
  cases h <;> simp

theorem Fault.status_ne_running (e : Fault) : e.status ≠ .running := by
  cases e <;> simp [Fault.status]

/-- What a step of a running core leaves: the writes of the instruction at PC with PC advanced over
it, or the stop of an HLT, an unassigned byte, or an error of the fetch or of the instruction
(40_dispatch.md R95). -/
theorem step_running_cases {s t : State} (hs : s.status = .running) (h : step s = .next t) :
    (∃ i w, Pseudocode.codeAt s s.pc.toNat (encode i) ∧ Writes i s w ∧ t = w.advance i.length) ∨
      (Pseudocode.codeAt s s.pc.toNat (encode .hlt) ∧ t = s.halt) ∨
      (∃ b, s.fetch = .unassigned b ∧ t = s.haltUnknown b) ∨
      (∃ e, (s.fetch = .raised e ∨ ∃ i, s.fetch = .instr i ∧ Raises i s e) ∧
        t = s.takeError e) := by
  have next_inj {u : State} (hu : step s = .next u) : t = u :=
    Host.Outcome.next.inj (h.symm.trans hu)
  rcases step_cases s with ⟨hstop, -⟩ | ⟨-, ⟨e, hf, hu⟩ | ⟨b, hf, hu⟩ | ⟨i, hf, hx⟩⟩
  · exact absurd hs hstop
  · exact .inr (.inr (.inr ⟨e, .inl hf, next_inj hu⟩))
  · exact .inr (.inr (.inl ⟨b, hf, next_inj hu⟩))
  · rcases exec_cases i s with ⟨rfl, hu⟩ | ⟨w, hw, hu⟩ | ⟨e, he, hu⟩
    · exact .inr (.inl ⟨State.codeAt_of_fetch hf, next_inj (hx.trans hu)⟩)
    · exact .inl ⟨i, w, State.codeAt_of_fetch hf, hw, next_inj (hx.trans hu)⟩
    · exact .inr (.inr (.inr ⟨e, .inr ⟨i, hf, he⟩, next_inj (hx.trans hu)⟩))

/-- The advance over an instruction that stands in memory does not wrap (10_state.md R29). -/
theorem State.pc_add_length_toNat {s : State} {i : Instr}
    (h : Pseudocode.codeAt s s.pc.toNat (encode i)) :
    (s.pc + BitVec.ofNat 9 i.length).toNat = s.pc.toNat + i.length := by
  obtain ⟨hend, -⟩ := h
  rw [length_encode] at hend
  have hsize := s.memSize_bounds
  have hlen := i.length_le_three
  rw [BitVec.toNat_add, BitVec.toNat_ofNat]
  omega

end Sys2Proof.Machine
end

section
/-! PROOFS. How PC changes (10_state.md R28, 40_dispatch.md R105). -/

namespace Sys2Proof.Machine

theorem State.memWrite_pc {s t : State} {a : Addr} {v : Byte} (h : s.memWrite a v = .ok t) :
    t.pc = s.pc := by
  rcases s.memWrite_cases a v with ⟨-, hw⟩ | ⟨-, hw⟩
  · obtain rfl := Except.ok.inj (hw.symm.trans h); rfl
  · simp [hw] at h

theorem aluOperation_pc {o : AluOp} {a b : Byte} {s t : State}
    (h : aluOperation o a b s = .ok t) : t.pc = s.pc := by
  cases o with
  | other code => simp [aluOperation] at h
  | add =>
    rcases checkReg_cases a with ⟨i, -, ha⟩ | ⟨-, ha⟩
    · rcases checkReg_cases b with ⟨j, -, hb⟩ | ⟨-, hb⟩
      · simp only [aluOperation, ha, hb] at h
        obtain rfl := Except.ok.inj h; rfl
      · simp [aluOperation, ha, hb, bind, Except.bind] at h
    · simp [aluOperation, ha, bind, Except.bind] at h

/-- The ports that neither reset nor step leave PC alone (40_dispatch.md R105). -/
theorem State.call_pc (s : State) {c : PortCall} (hreset : c ≠ .reset) (hstep : c ≠ .step)
    (hrun : c ≠ .run) : (s.call c).2.pc = s.pc := by
  cases c with
  | reset => exact absurd rfl hreset
  | step => exact absurd rfl hstep
  | run => exact absurd rfl hrun
  | load image => simp only [State.call, State.loadPort]; split <;> rfl
  | memRead a => simp only [State.call, State.memReadPort]; split <;> rfl
  | memWrite a v =>
    simp only [State.call, State.memWritePort]
    split
    · exact State.memWrite_pc ‹_›
    · rfl
  | regRead i => simp only [State.call, State.regReadPort]; split <;> rfl
  | regWrite i v => simp only [State.call, State.regWritePort]; split <;> rfl
  | alu o a b =>
    simp only [State.call, State.aluPort]
    split
    · exact aluOperation_pc ‹_›
    · rfl
  | trace => rfl
  | status => rfl
  | out => rfl

/-- The rows of R28 for a running core: a step that completes, and one that stops. -/
theorem step_running_pc {s t : State} (hs : s.status = .running) (h : step s = .next t) :
    (t.status = .running →
      ∃ i, Pseudocode.codeAt s s.pc.toNat (encode i) ∧ i ≠ .hlt ∧
        t.pc.toNat = s.pc.toNat + (encode i).length) ∧
    (t.status ≠ .running → t.pc = s.pc) := by
  rcases step_running_cases hs h with
    ⟨i, w, hcode, hw, rfl⟩ | ⟨-, rfl⟩ | ⟨b, -, rfl⟩ | ⟨e, -, rfl⟩
  · refine ⟨fun _ => ⟨i, hcode, hw.ne_hlt, ?_⟩, fun ht => absurd (hw.status_eq.trans hs) ht⟩
    rw [State.advance_pc, hw.pc_eq, State.pc_add_length_toNat hcode, length_encode]
  · exact ⟨by simp, fun _ => rfl⟩
  · exact ⟨by simp, fun _ => rfl⟩
  · exact ⟨fun ht => absurd ht e.status_ne_running, fun _ => rfl⟩

/-- Settles O15, by the inversion of a running core's step, a case for each row of R28. -/
theorem pcMovesOnlyByInstructionLength : Obligations.PcMovesOnlyByInstructionLength := by
  refine ⟨fun s t hs h => step_running_pc hs h, fun s t hs h => ?_,
    fun s c hreset hstep hrun => s.call_pc hreset hstep hrun⟩
  rcases step_cases s with ⟨-, hu⟩ | ⟨hrun, -⟩
  · obtain rfl := Host.Outcome.next.inj (hu.symm.trans h); rfl
  · exact absurd hrun hs

/-- Settles O45: both reset states are `State.resetAt` of some size, whose memory lists no cell. -/
theorem resetZeroesRegistersAndMemory : Obligations.ResetZeroesRegistersAndMemory := fun s =>
  ⟨State.resetAt_getReg s.lastAddr, Memory.read_nil,
    State.resetAt_getReg Config.referenceLastAddr, Memory.read_nil⟩

end Sys2Proof.Machine
end

section
/-! PROOFS. The opcode table (30_encoding.md R80, R82), the stop at an unassigned byte (R83) and
LDI's immediate (R79). -/

namespace Sys2Proof

/-- An unassigned byte is none of the six opcode bytes (30_encoding.md R82). -/
theorem opcodeOf_eq_none (b : Byte) : opcodeOf b = none ↔
    b ≠ 0x82#8 ∧ b ≠ 0x47#8 ∧ b ≠ 0x01#8 ∧ b ≠ 0xA2#8 ∧ b ≠ 0x45#8 ∧ b ≠ 0x46#8 := by
  simp [opcodeOf, ite_eq_iff]

/-- The unassigned bytes are the gaps between the six opcode bytes. -/
theorem opcodeOf_eq_none_iff_gap (b : Byte) : opcodeOf b = none ↔
    b = 0x00 ∨ (0x02 ≤ b ∧ b ≤ 0x44) ∨ (0x48 ≤ b ∧ b ≤ 0x81) ∨ (0x83 ≤ b ∧ b ≤ 0xA1) ∨
      0xA3 ≤ b := by
  rw [opcodeOf_eq_none]
  bv_omega

theorem encode_hasShape (i : Instr) : Laws.EncodeShape.Statement i := by
  cases i with
  | ldi r v => exact Laws.EncodeShape.ldi r v
  | prn r => exact Laws.EncodeShape.prn r
  | hlt => exact Laws.EncodeShape.hlt
  | mul a b => exact Laws.EncodeShape.mul a b
  | push r => exact Laws.EncodeShape.push r
  | pop r => exact Laws.EncodeShape.pop r

theorem count_unassigned_bytes :
    ((List.range 256).filter fun n => (opcodeOf (BitVec.ofNat 8 n)).isNone).length = 250 := by
  decide +kernel

/-- Whatever follows an unassigned byte, decoding rejects it by name. -/
theorem decode_cons_of_unassigned {op : Byte} (h : opcodeOf op = none) (bs : List Byte) :
    decode (op :: bs) = .error (.unassigned op) := by
  simp only [decode, h]

end Sys2Proof

namespace Sys2Proof.Machine

/-- Settles O2: the table read backwards gives each row, and its gaps are the other 250 bytes. -/
theorem opcodeTableIsExactAndClosed : Obligations.OpcodeTableIsExactAndClosed := by
  refine ⟨?ldi, ?prn, ?hlt, ?mul, ?push, ?pop, ⟨rfl, rfl, rfl, rfl, rfl, rfl⟩, fun i => ?shape,
    opcodeOf_eq_none_iff_gap, count_unassigned_bytes⟩
  case shape =>
    obtain ⟨op, operands, o, hencode, hop, hcount, -⟩ := encode_hasShape i
    exact ⟨op, operands, o, hencode, hop, hcount⟩
  all_goals simp [opcodeOf_eq_some]

theorem State.codeWindow_eq_cons {s : State} (h : s.pc.toNat < s.memSize) :
    s.codeWindow = s.mem.read s.pc.toNat :: s.bytesFrom 2 (s.pc.toNat + 1) := if_pos h

theorem State.fetch_of_unassigned {s : State} (hpc : s.pc.toNat < s.memSize)
    (hop : opcodeOf (s.mem.read s.pc.toNat) = none) :
    s.fetch = .unassigned (s.mem.read s.pc.toNat) := by
  rw [State.fetch, State.codeWindow_eq_cons hpc, decode_cons_of_unassigned hop]

theorem step_of_fetch_unassigned {s : State} {b : Byte} (hs : s.status = .running)
    (hf : s.fetch = .unassigned b) : step s = .next (s.haltUnknown b) := by
  simp only [step, if_pos hs, hf]

/-- Settles O12: the fetch finds the unassigned byte, and the step halts there; memory that lists no
cell reads 0, one of the unassigned bytes. -/
theorem unassignedByteHalts : Obligations.UnassignedByteHalts := by
  refine ⟨fun s hs hpc hop => step_of_fetch_unassigned hs (State.fetch_of_unassigned hpc hop),
    fun n a => ?_⟩
  have hzero : (State.resetAt n).mem.read a = 0x00 := Memory.read_nil a
  exact (opcodeOf_eq_none_iff_gap _).mpr (.inl hzero)

/-- With an index that names a register, LDI commits its one write. -/
theorem exec_ldi_of_valid {r : Byte} (h : r.toNat < 8) (v : Byte) (s : State) :
    exec (.ldi r v) s = .next ((s.setReg ⟨r.toNat, h⟩ v).advance 3) := by
  simp only [exec, execLdi, checkReg_valid r h]
  rfl

/-- Settles O19: the committed write and the advance, field by field. -/
theorem ldiLoadsTheImmediate : Obligations.LdiLoadsTheImmediate :=
  fun _ v s h => exec_ldi_of_valid h v s

end Sys2Proof.Machine
end

section
/-! PROOFS. What stops a run: HLT in any cell (40_dispatch.md R101), and the end of memory, which
PC nears by two or more cells a step (R99, R103). -/

namespace Sys2Proof

theorem Instr.two_le_length {i : Instr} (h : i ≠ .hlt) : 2 ≤ i.length := by
  cases i with
  | hlt => exact absurd rfl h
  | _ => simp [Instr.length]

end Sys2Proof

namespace Sys2Proof.Machine

theorem Writes.memSize_eq {i : Instr} {s w : State} (h : Writes i s w) :
    w.memSize = s.memSize := by
  cases h <;> rfl

theorem exec_answers_next (i : Instr) (s : State) : ∃ t, exec i s = .next t := by
  rcases exec_cases i s with ⟨-, h⟩ | ⟨_, -, h⟩ | ⟨_, -, h⟩ <;> exact ⟨_, h⟩

theorem step_answers_next (s : State) : ∃ t, step s = .next t := by
  rcases step_cases s with ⟨-, h⟩ | ⟨-, ⟨_, -, h⟩ | ⟨_, -, h⟩ | ⟨i, -, h⟩⟩
  · exact ⟨_, h⟩
  · exact ⟨_, h⟩
  · exact ⟨_, h⟩
  · exact (exec_answers_next i s).imp fun _ => h.trans

theorem step_eq_next_stepped (s : State) : step s = .next s.stepped := by
  obtain ⟨t, h⟩ := step_answers_next s
  simp only [State.stepped, h]

theorem step_of_stopped {s : State} (h : s.status ≠ .running) : step s = .next s := if_neg h

theorem step_of_fetch_instr {s : State} {i : Instr} (hs : s.status = .running)
    (hf : s.fetch = .instr i) : step s = exec i s := by
  simp only [step, if_pos hs, hf]

theorem State.runFor_of_stopped {s : State} (h : s.status ≠ .running) (n : Nat) :
    State.runFor n s = s := by
  cases n with
  | zero => rfl
  | succ n => exact if_neg h

theorem State.runFor_succ_of_running {s : State} (h : s.status = .running) (n : Nat) :
    State.runFor (n + 1) s = State.runFor n s.stepped := if_pos h

/-- A step that leaves the core running went over at least two cells, all of them in memory: HLT,
the one instruction of one byte, stops the core (10_state.md R28, R29). -/
theorem State.stepped_of_running_twice {s : State} (hs : s.status = .running)
    (ht : s.stepped.status = .running) :
    s.stepped.memSize = s.memSize ∧ s.pc.toNat + 2 ≤ s.stepped.pc.toNat ∧
      s.stepped.pc.toNat ≤ s.memSize := by
  rcases step_running_cases hs (step_eq_next_stepped s) with
    ⟨i, w, hcode, hw, hstep⟩ | ⟨-, hstep⟩ | ⟨b, -, hstep⟩ | ⟨e, -, hstep⟩
  · have hpc : s.stepped.pc.toNat = s.pc.toNat + i.length := by
      rw [hstep, State.advance_pc, hw.pc_eq, State.pc_add_length_toNat hcode]
    obtain ⟨hend, -⟩ := hcode
    rw [length_encode] at hend
    have hlen := Instr.two_le_length hw.ne_hlt
    exact ⟨by rw [hstep, State.advance_memSize, hw.memSize_eq], by omega, by omega⟩
  · simp [hstep] at ht
  · simp [hstep] at ht
  · exact absurd (by simpa [hstep] using ht) e.status_ne_running

/-- At two or more cells a step, a run stops within `n` steps when memory has fewer than `2 * n`
cells left at PC (40_dispatch.md R103). -/
theorem State.runFor_stops {n : Nat} {s : State} (h : s.memSize - s.pc.toNat < 2 * n) :
    (State.runFor n s).status ≠ .running := by
  induction n generalizing s with
  | zero => omega
  | succ n ih =>
    by_cases hs : s.status = .running
    · rw [State.runFor_succ_of_running hs]
      by_cases ht : s.stepped.status = .running
      · obtain ⟨hsize, hpc, hend⟩ := State.stepped_of_running_twice hs ht
        exact ih (by omega)
      · rwa [State.runFor_of_stopped ht]
    · rwa [State.runFor_of_stopped hs]

theorem State.runFor_runBound_stops (s : State) :
    (State.runFor s.runBound s).status ≠ .running :=
  State.runFor_stops (by rw [State.runBound]; omega)

/-- A bounded run is the iterated step, every state before the last one running. -/
theorem State.runFor_eq_iterate (n : Nat) (s : State) :
    ∃ k, k ≤ n ∧ State.runFor n s = State.stepped^[k] s ∧
      ∀ j, j < k → (State.stepped^[j] s).status = .running := by
  induction n generalizing s with
  | zero => exact ⟨0, le_rfl, rfl, by simp⟩
  | succ n ih =>
    by_cases hs : s.status = .running
    · obtain ⟨k, hk, hrun, hbefore⟩ := ih s.stepped
      refine ⟨k + 1, by omega, (State.runFor_succ_of_running hs n).trans hrun, fun j hj => ?_⟩
      cases j with
      | zero => exact hs
      | succ j => exact hbefore j (by omega)
    · exact ⟨0, by omega, State.runFor_of_stopped hs _, by simp⟩

theorem State.call_run (s : State) : s.call .run =
    (.stepped (State.runFor s.runBound s).status, State.runFor s.runBound s) := rfl

theorem State.call_run_of_stopped {s : State} (h : s.status ≠ .running) :
    s.call .run = (.stepped s.status, s) := by
  rw [State.call_run, State.runFor_of_stopped h]

/-- Settles O49: the bounded run is the iterated step, and PC reaches the end of memory within the
bound. -/
theorem runStepsUntilStopped : Obligations.RunStepsUntilStopped := fun s => by
  obtain ⟨n, -, hrun, hbefore⟩ := s.runFor_eq_iterate s.runBound
  exact ⟨n, hrun, hbefore, s.runFor_runBound_stops, rfl⟩

/-- HLT has no operand, so its byte alone is fetched, the last cell of memory included. -/
theorem State.fetch_of_hlt {s : State} (hpc : s.pc.toNat < s.memSize)
    (hop : s.mem.read s.pc.toNat = 0x01) : s.fetch = .instr .hlt := by
  rw [State.fetch, State.codeWindow_eq_cons hpc, hop]
  rfl

/-- Settles O23: the fetch finds the one byte, and the halted core is one of the stopped cores that
a step and a run leave alone. -/
theorem hltHaltsInPlace : Obligations.HltHaltsInPlace := by
  refine ⟨rfl, fun _ => rfl, fun s hs hpc hop => ⟨s.halt, ?_, rfl, ?_, ?_⟩⟩
  · exact step_of_fetch_instr hs (State.fetch_of_hlt hpc hop)
  · exact step_of_stopped (by simp)
  · exact State.call_run_of_stopped (by simp)

end Sys2Proof.Machine
end

section
/-! PROOFS. Decoding and encoding agree (30_encoding.md sections 1 to 3), and what the decoder
rejects. -/

namespace Sys2Proof

theorem decode_encode_append (i : Instr) (rest : List Byte) :
    decode (encode i ++ rest) = .ok (i, rest) := by
  cases i <;> rfl

theorem decode_cons_of_assigned {op : Byte} {o : Opcode} (h : opcodeOf op = some o)
    (bs : List Byte) : decode (op :: bs) = decodeOperands o bs := by
  simp only [decode, h]

theorem decodeOne_of_short (mk : Byte → Instr) {bs : List Byte} (h : bs.length < 1) :
    decodeOne mk bs = .error (.missingOperand (bs.length + 1)) := by
  cases bs with
  | nil => rfl
  | cons r bs => simp at h

theorem decodeTwo_of_short (mk : Byte → Byte → Instr) {bs : List Byte} (h : bs.length < 2) :
    decodeTwo mk bs = .error (.missingOperand (bs.length + 1)) := by
  rcases bs with _ | ⟨a, _ | ⟨b, bs⟩⟩
  · rfl
  · rfl
  · simp at h

theorem decodeOne_of_enough (mk : Byte → Instr) {bs : List Byte} (h : 1 ≤ bs.length) :
    ∃ r, decodeOne mk bs = .ok (mk r, bs.drop 1) := by
  cases bs with
  | nil => simp at h
  | cons r bs => exact ⟨r, rfl⟩

theorem decodeTwo_of_enough (mk : Byte → Byte → Instr) {bs : List Byte} (h : 2 ≤ bs.length) :
    ∃ a b, decodeTwo mk bs = .ok (mk a b, bs.drop 2) := by
  rcases bs with _ | ⟨a, _ | ⟨b, bs⟩⟩
  · simp at h
  · simp at h
  · exact ⟨a, b, rfl⟩

/-- Operands cut short are rejected by the place of the first missing one. -/
theorem decodeOperands_of_short {o : Opcode} {bs : List Byte} (h : bs.length < o.operands) :
    decodeOperands o bs = .error (.missingOperand (bs.length + 1)) := by
  cases o with
  | ldi => exact decodeTwo_of_short _ h
  | prn => exact decodeOne_of_short _ h
  | hlt => simp [Opcode.operands] at h
  | mul => exact decodeTwo_of_short _ h
  | push => exact decodeOne_of_short _ h
  | pop => exact decodeOne_of_short _ h

theorem decodeOperands_of_enough {o : Opcode} {bs : List Byte} (h : o.operands ≤ bs.length) :
    ∃ i, decodeOperands o bs = .ok (i, bs.drop o.operands) ∧ i.length = 1 + o.operands := by
  cases o with
  | ldi => obtain ⟨a, b, hd⟩ := decodeTwo_of_enough .ldi h; exact ⟨_, hd, rfl⟩
  | prn => obtain ⟨r, hd⟩ := decodeOne_of_enough .prn h; exact ⟨_, hd, rfl⟩
  | hlt => exact ⟨.hlt, rfl, rfl⟩
  | mul => obtain ⟨a, b, hd⟩ := decodeTwo_of_enough .mul h; exact ⟨_, hd, rfl⟩
  | push => obtain ⟨r, hd⟩ := decodeOne_of_enough .push h; exact ⟨_, hd, rfl⟩
  | pop => obtain ⟨r, hd⟩ := decodeOne_of_enough .pop h; exact ⟨_, hd, rfl⟩

end Sys2Proof

namespace Sys2Proof.Machine

/-- Settles O1: decoding takes an encoding off the front and nothing else. -/
theorem decodeIsInverseOfEncode : Obligations.DecodeIsInverseOfEncode := by
  refine fun bytes rest i => ⟨eq_encode_append_of_decode, ?_⟩
  rintro rfl
  exact decode_encode_append i rest

/-- Settles O3: the opcode byte decides between the two rejections, and the number of operand bytes
between the second and an instruction. -/
theorem decodeRejectsByName : Obligations.DecodeRejectsByName := by
  refine fun op operands => ⟨fun h => decode_cons_of_unassigned h operands, fun o h hshort => ?_,
    fun o h henough => ?_⟩
  · rw [decode_cons_of_assigned h, decodeOperands_of_short hshort]
  · rw [decode_cons_of_assigned h]
    exact decodeOperands_of_enough henough

/-- Settles O4: each accepted word is an encoding and a rest, and 0xFF is unassigned. -/
theorem sampleWordsDecode : Obligations.SampleWordsDecode :=
  ⟨decode_encode_append (.ldi 0 8) [], decode_encode_append (.prn 0) [0b00000001],
    decode_encode_append .hlt [], decode_encode_append (.mul 0 1) [],
    decode_encode_append (.push 7) [], decode_encode_append (.pop 255) [],
    decode_cons_of_unassigned (by decide) [0, 0]⟩

/-- Settles O5: a check of each of the six rows. -/
theorem opcodeBitsMirrorOperandCount : Obligations.OpcodeBitsMirrorOperandCount := by
  intro op o h
  rcases (opcodeOf_eq_some op o).mp h with
    ⟨rfl, rfl⟩ | ⟨rfl, rfl⟩ | ⟨rfl, rfl⟩ | ⟨rfl, rfl⟩ | ⟨rfl, rfl⟩ | ⟨rfl, rfl⟩ <;> decide

end Sys2Proof.Machine
end

section
/-! PROOFS. The invariant: every update the core makes keeps it, so every step and every port call
does (10_state.md R29, R31, R32, R35; 20_memory.md R50). -/

namespace Sys2Proof.Machine

theorem State.Inv.resetAt (n : Fin 256) : (State.resetAt n).Inv where
  memWf := rfl
  memInBounds := by simp [State.resetAt]
  pcInBounds := by simp [State.resetAt]
  stopAgrees := rfl
  productsBounded := by simp [State.resetAt]

section Updates

variable {s : State}

theorem State.Inv.setReg (h : s.Inv) (i : Fin 8) (v : Byte) : (s.setReg i v).Inv where
  memWf := h.memWf
  memInBounds := h.memInBounds
  pcInBounds := h.pcInBounds
  stopAgrees := h.stopAgrees
  productsBounded := h.productsBounded

/-- Any change of memory keeps the invariant that keeps memory canonical and inside the array. -/
theorem State.Inv.withMem (h : s.Inv) {m : Memory} (hwf : m.wf = true)
    (hbounds : ∀ c ∈ m, c.1 < s.memSize) : State.Inv { s with mem := m } where
  memWf := hwf
  memInBounds := hbounds
  pcInBounds := h.pcInBounds
  stopAgrees := h.stopAgrees
  productsBounded := h.productsBounded

theorem State.Inv.memWrite (h : s.Inv) {a : Nat} (ha : a < s.memSize) (v : Byte) :
    State.Inv { s with mem := s.mem.write a v } := by
  refine h.withMem (Memory.wf_write _ _ _ h.memWf) fun c hc => ?_
  rcases Memory.mem_write _ _ _ _ hc with hcell | hold
  · exact hcell ▸ ha
  · exact h.memInBounds c hold

theorem State.Inv.load (h : s.Inv) {image : List Byte} (hfit : image.length ≤ s.memSize) :
    State.Inv { s with mem := s.mem.loadFrom 0 image } := by
  refine h.withMem (Memory.wf_loadFrom _ _ _ h.memWf) fun c hc => ?_
  rcases Memory.mem_loadFrom _ _ _ _ hc with ⟨-, hcell⟩ | hold
  · omega
  · exact h.memInBounds c hold

/-- An event keeps the invariant unless it is a product too large for two bytes. -/
theorem State.Inv.emit (h : s.Inv) {e : OutEvent}
    (he : ∀ p, e = .mulResult p → p.toNat ≤ 65025) : (s.emit e).Inv where
  memWf := h.memWf
  memInBounds := h.memInBounds
  pcInBounds := h.pcInBounds
  stopAgrees := h.stopAgrees
  productsBounded := fun p hp => by
    rcases List.mem_append.mp hp with hold | hnew
    · exact h.productsBounded p hold
    · exact he p (List.mem_singleton.mp hnew).symm

theorem State.Inv.advance (h : s.Inv) {n : Nat}
    (hend : (s.pc + BitVec.ofNat 9 n).toNat ≤ s.memSize) : (s.advance n).Inv where
  memWf := h.memWf
  memInBounds := h.memInBounds
  pcInBounds := hend
  stopAgrees := h.stopAgrees
  productsBounded := h.productsBounded

/-- Any stop keeps the invariant whose FAULT_INFO agrees with its STATUS. -/
theorem State.Inv.withStop (h : s.Inv) {st : Status} {info : FaultInfo}
    (hagree : State.stopAgrees { s with status := st, faultInfo := info } = true) :
    State.Inv { s with status := st, faultInfo := info } where
  memWf := h.memWf
  memInBounds := h.memInBounds
  pcInBounds := h.pcInBounds
  stopAgrees := hagree
  productsBounded := h.productsBounded

end Updates

/-- The address a fetch fails at is out of bounds: PC, or the end of memory. -/
theorem State.stopAgrees_of_fetch_raised {s : State} {e : Fault} (hf : s.fetch = .raised e) :
    (s.takeError e).stopAgrees = true := by
  rcases s.fetch_cases with ⟨hpc, hu⟩ | ⟨-, -, hu⟩ | ⟨o, k, -, -, -, -, hend, hu⟩ |
    ⟨i, rest, -, -, hu⟩
  · obtain rfl := Fetched.raised.inj (hf.symm.trans hu)
    exact decide_eq_true hpc
  · simp [hf] at hu
  · obtain rfl := Fetched.raised.inj (hf.symm.trans hu)
    have hsize := s.memSize_bounds
    refine decide_eq_true (?_ : s.memSize ≤ (s.pc + BitVec.ofNat 9 k).toNat)
    rw [BitVec.toNat_add, BitVec.toNat_ofNat]
    omega
  · simp [hf] at hu

theorem State.opcodeOf_of_fetch_unassigned {s : State} {b : Byte} (hf : s.fetch = .unassigned b) :
    opcodeOf b = none := by
  rcases s.fetch_cases with ⟨-, hu⟩ | ⟨-, hop, hu⟩ | ⟨o, k, -, -, -, -, -, hu⟩ | ⟨i, rest, -, -, hu⟩
  · simp [hf] at hu
  · exact Fetched.unassigned.inj (hf.symm.trans hu) ▸ hop
  · simp [hf] at hu
  · simp [hf] at hu

/-- An error an instruction raises names an index above 7 or an address out of bounds. -/
theorem Raises.stopAgrees {i : Instr} {s : State} {e : Fault} (h : Raises i s e) :
    (s.takeError e).stopAgrees = true := by
  cases h with
  | ldi h => exact decide_eq_true h
  | prn h => exact decide_eq_true h
  | mulFirst h => exact decide_eq_true h
  | mulSecond _ h => exact decide_eq_true h
  | push h => exact decide_eq_true h
  | pushMem _ h => exact decide_eq_true h
  | pop h => exact decide_eq_true h
  | popMem _ h => exact decide_eq_true h

/-- An instruction's writes are register writes, one store in bounds, or one event. -/
theorem Writes.inv {i : Instr} {s w : State} (h : Writes i s w) (hs : s.Inv) : w.Inv := by
  cases h with
  | ldi hr => exact hs.setReg _ _
  | prn hr => exact hs.emit (by simp)
  | mul ha hb =>
    refine hs.emit fun p hp => ?_
    obtain rfl := OutEvent.mulResult.inj hp
    exact aluMul_bound _ _
  | push hr hm => exact (hs.memWrite hm _).setReg _ _
  | pop hr hm => exact (hs.setReg _ _).setReg _ _

theorem eq_of_step_of_stopped {s t : State} (hs : s.status ≠ .running) (h : step s = .next t) :
    t = s := Host.Outcome.next.inj (h.symm.trans (step_of_stopped hs))

theorem State.Inv.step {s t : State} (hs : s.Inv) (h : step s = .next t) : t.Inv := by
  by_cases hrun : s.status = .running
  · rcases step_running_cases hrun h with
      ⟨i, w, hcode, hw, rfl⟩ | ⟨-, rfl⟩ | ⟨b, hf, rfl⟩ | ⟨e, hf | ⟨i, -, he⟩, rfl⟩
    · refine (hw.inv hs).advance ?_
      rw [hw.pc_eq, hw.memSize_eq, State.pc_add_length_toNat hcode, ← length_encode]
      exact hcode.1
    · exact hs.withStop rfl
    · exact hs.withStop (by simp [State.stopAgrees, State.opcodeOf_of_fetch_unassigned hf])
    · exact hs.withStop (State.stopAgrees_of_fetch_raised hf)
    · exact hs.withStop he.stopAgrees
  · rwa [eq_of_step_of_stopped hrun h]

theorem State.Inv.stepped {s : State} (hs : s.Inv) : s.stepped.Inv :=
  hs.step (step_eq_next_stepped s)

theorem State.Inv.runFor {s : State} (hs : s.Inv) (n : Nat) : (State.runFor n s).Inv := by
  induction n generalizing s with
  | zero => exact hs
  | succ n ih =>
    rw [State.runFor]
    split
    · exact ih hs.stepped
    · exact hs

/-- What the `alu` port's operation does: one register write, or an error that it names rightly. -/
theorem aluOperation_cases (o : AluOp) (a b : Byte) (s : State) :
    (∃ j v, aluOperation o a b s = .ok (s.setReg j v)) ∨
      ∃ e, aluOperation o a b s = .error e ∧ (s.takeError e).stopAgrees = true := by
  cases o with
  | other code => exact .inr ⟨_, rfl, rfl⟩
  | add =>
    rcases checkReg_cases a with ⟨i, -, ha⟩ | ⟨hi, ha⟩
    · rcases checkReg_cases b with ⟨j, -, hb⟩ | ⟨hj, hb⟩
      · exact .inl ⟨i, _, by simp only [aluOperation, ha, hb]; rfl⟩
      · exact .inr ⟨.invalidRegister b, by simp only [aluOperation, ha, hb]; rfl,
          decide_eq_true hj⟩
    · exact .inr ⟨.invalidRegister a, by simp only [aluOperation, ha]; rfl, decide_eq_true hi⟩

/-- What a port call leaves: `Called c s t` says that the call `c` can turn `s` into `t`. -/
inductive Called : PortCall → State → State → Prop where
  | reset {s : State} : Called .reset s (State.resetAt s.lastAddr)
  | step {s : State} : Called .step s s.stepped
  | run {s : State} : Called .run s (State.runFor s.runBound s)
  | load {s : State} {image : List Byte} (h : image.length ≤ s.memSize) :
      Called (.load image) s { s with mem := s.mem.loadFrom 0 image }
  | memWrite {s : State} {a : Addr} {v : Byte} (h : a.toNat < s.memSize) :
      Called (.memWrite a v) s { s with mem := s.mem.write a.toNat v }
  | setReg {s : State} {c : PortCall} {j : Fin 8} {v : Byte} (hreset : c ≠ .reset) :
      Called c s (s.setReg j v)
  | failed {s : State} {c : PortCall} {e : Fault} (hreset : c ≠ .reset)
      (h : (s.takeError e).stopAgrees = true) : Called c s (s.takeError e)
  | same {s : State} {c : PortCall} (hreset : c ≠ .reset) : Called c s s

theorem State.called (s : State) (c : PortCall) : Called c s (s.call c).2 := by
  cases c with
  | reset => exact .reset
  | step => exact .step
  | run => exact .run
  | load image =>
    simp only [State.call, State.loadPort]
    split
    · exact .load ‹_›
    · exact .same (by simp)
  | memRead a => simp only [State.call, State.memReadPort]; split <;> exact .same (by simp)
  | memWrite a v =>
    simp only [State.call, State.memWritePort]
    rcases s.memWrite_cases a v with ⟨ha, hw⟩ | ⟨-, hw⟩
    · rw [hw]; exact .memWrite ha
    · rw [hw]; exact .same (by simp)
  | regRead i => simp only [State.call, State.regReadPort]; split <;> exact .same (by simp)
  | regWrite i v =>
    simp only [State.call, State.regWritePort]
    split
    · exact .setReg (by simp)
    · exact .same (by simp)
  | alu o a b =>
    simp only [State.call, State.aluPort]
    rcases aluOperation_cases o a b s with ⟨j, v, ho⟩ | ⟨e, ho, he⟩
    · rw [ho]; exact .setReg (by simp)
    · rw [ho]; exact .failed (by simp) he
  | trace => exact .same (by simp)
  | status => exact .same (by simp)
  | out => exact .same (by simp)

theorem Called.inv {c : PortCall} {s t : State} (h : Called c s t) (hs : s.Inv) : t.Inv := by
  cases h with
  | reset => exact .resetAt _
  | step => exact hs.stepped
  | run => exact hs.runFor _
  | load hfit => exact hs.load hfit
  | memWrite ha => exact hs.memWrite ha _
  | setReg _ => exact hs.setReg _ _
  | failed _ hagree => exact hs.withStop hagree
  | same _ => exact hs

theorem State.stepped_of_stopped {s : State} (h : s.status ≠ .running) : s.stepped = s :=
  eq_of_step_of_stopped h (step_eq_next_stepped s)

/-- A call other than reset leaves STATUS alone on a stopped core, or writes a failure's. -/
theorem Called.status_ne_running {c : PortCall} {s t : State} (h : Called c s t)
    (hs : s.status ≠ .running) (hc : c ≠ .reset) : t.status ≠ .running := by
  cases h with
  | reset => exact absurd rfl hc
  | step => rwa [State.stepped_of_stopped hs]
  | run => rwa [State.runFor_of_stopped hs]
  | load _ => exact hs
  | memWrite _ => exact hs
  | setReg _ => exact hs
  | failed _ _ => exact Fault.status_ne_running _
  | same _ => exact hs

/-- Settles O53: the instruction's writes keep the invariant, its bytes lie in memory so PC does not
pass the end, and a stop names what stopped the core. -/
theorem everyStepKeepsTheInvariant : Obligations.EveryStepKeepsTheInvariant :=
  fun _ _ hs h => hs.step h

/-- Settles O54, by what each port call leaves. -/
theorem everyPortCallKeepsTheInvariant : Obligations.EveryPortCallKeepsTheInvariant :=
  fun s c hs => (s.called c).inv hs

/-- Settles O52: the reference core is one of the sizes. -/
theorem resetMeetsTheInvariant : Obligations.ResetMeetsTheInvariant :=
  fun n => ⟨.resetAt n, .resetAt _⟩

/-- Settles O44, by what each port call leaves. -/
theorem onlyResetRestarts : Obligations.OnlyResetRestarts :=
  fun s c hs hc => (s.called c).status_ne_running hs hc

/-- Settles O9: the step, and the run, of a stopped core is the core itself. -/
theorem stoppedCoreStepChangesNothing : Obligations.StoppedCoreStepChangesNothing := by
  refine fun s hs => ⟨step_of_stopped hs, ?_, State.call_run_of_stopped hs⟩
  rw [State.call, State.stepPort, State.stepped_of_stopped hs]

end Sys2Proof.Machine
end

section
/-! PROOFS. The end of a run (40_dispatch.md R103, R104). -/

namespace Sys2Proof.Machine

/-- The error that stopped a core is the one STATUS and FAULT_INFO record. -/
theorem State.failure_eq_some {s : State} {e : Fault} :
    s.failure = some e ↔ s.status = e.status ∧ s.faultInfo = e.info := by
  constructor
  · intro h
    unfold State.failure at h
    split at h
    case h_4 => simp at h
    all_goals
      obtain rfl := Option.some.inj h
      exact ⟨‹_›, ‹_›⟩
  · rintro ⟨hstatus, hinfo⟩
    cases e <;> simp only [State.failure, hstatus, hinfo, Fault.status, Fault.info]

theorem Fault.failed_status (e : Fault) : e.status.failed = true := by
  cases e <;> rfl

theorem State.failure_eq_none {s : State} (h : s.status.failed = false) : s.failure = none := by
  refine Option.eq_none_iff_forall_not_mem.mpr fun e he => ?_
  obtain ⟨hstatus, -⟩ := State.failure_eq_some.mp he
  simp [hstatus, e.failed_status] at h

/-- A failed core whose FAULT_INFO agrees with its STATUS records an error. -/
theorem State.exists_failure {s : State} (hagree : s.stopAgrees = true)
    (hfailed : s.status.failed = true) : ∃ e, s.failure = some e := by
  unfold State.stopAgrees at hagree
  split at hagree
  case h_4 a hst hinfo => exact ⟨.outOfBounds a, State.failure_eq_some.mpr ⟨hst, hinfo⟩⟩
  case h_5 i hst hinfo => exact ⟨.invalidRegister i, State.failure_eq_some.mpr ⟨hst, hinfo⟩⟩
  case h_6 o hst hinfo => exact ⟨.unsupportedOperation o, State.failure_eq_some.mpr ⟨hst, hinfo⟩⟩
  case h_7 => simp at hagree
  all_goals simp_all [Status.failed]

theorem runOutcome_of_failure {s : State} {e : Fault} (h : (s.call .run).2.failure = some e) :
    runOutcome s = .fault e := by
  rw [State.call_run] at h
  simp only [runOutcome, h]

theorem runOutcome_of_no_failure {s : State} (h : (s.call .run).2.failure = none) :
    runOutcome s = .next (s.call .run).2 := by
  rw [State.call_run] at h ⊢
  simp only [runOutcome, h]

/-- Settles O51: the run keeps the invariant, so a failed core records the error that stopped it. -/
theorem failedRunIsAFaultOutcome : Obligations.FailedRunIsAFaultOutcome := by
  refine fun s hs => ⟨fun hfailed => ?_, fun hgood => ?_⟩
  · obtain ⟨e, he⟩ := State.exists_failure ((s.called .run).inv hs).stopAgrees hfailed
    exact ⟨e, runOutcome_of_failure he, State.failure_eq_some.mp he⟩
  · exact runOutcome_of_no_failure (State.failure_eq_none hgood)

/-- Settles O50: the bounded run is the iterated step, and it stops. -/
theorem everyRunEndsWithinHalfTheMemory : Obligations.EveryRunEndsWithinHalfTheMemory := by
  intro s
  obtain ⟨n, hn, hrun, -⟩ := s.runFor_eq_iterate s.runBound
  exact ⟨n, hn, hrun ▸ s.runFor_runBound_stops⟩

end Sys2Proof.Machine
end

section
/-! PROOFS. A fetch reads the code that stands at PC (40_dispatch.md R95), and an instruction does
what `Writes` and `Raises` say: the converses of `State.codeAt_of_fetch` and `exec_cases`. -/

namespace Sys2Proof.Pseudocode

open Sys2Proof.Machine

theorem codeAt_cons {s : State} {p : Nat} {b : Byte} {bs : List Byte} :
    codeAt s p (b :: bs) ↔ (p < s.memSize ∧ s.mem.read p = b) ∧ codeAt s (p + 1) bs := by
  constructor
  · rintro ⟨hend, hread⟩
    simp only [List.length_cons] at hend
    refine ⟨⟨by omega, hread 0 (by simp)⟩, by omega, fun k hk => ?_⟩
    rw [Nat.add_right_comm]
    exact hread (k + 1) (by simpa using hk)
  · rintro ⟨⟨-, hfirst⟩, hend, hread⟩
    refine ⟨by simp only [List.length_cons]; omega, fun k hk => ?_⟩
    cases k with
    | zero => exact hfirst
    | succ k =>
      have := hread k (by simpa using hk)
      rwa [Nat.add_right_comm] at this

/-- Code stands in every core of the same size whose memory reads alike there. -/
theorem codeAt_of_read_eq {s t : State} {p : Nat} {bs : List Byte} (h : codeAt s p bs)
    (hsize : t.memSize = s.memSize)
    (hread : ∀ k, k < bs.length → t.mem.read (p + k) = s.mem.read (p + k)) : codeAt t p bs :=
  ⟨hsize ▸ h.1, fun k hk => (hread k hk).trans (h.2 k hk)⟩

end Sys2Proof.Pseudocode

namespace Sys2Proof.Machine

theorem State.bytesFrom_of_codeAt {s : State} {bs : List Byte} {p n : Nat}
    (h : Pseudocode.codeAt s p bs) (hn : bs.length ≤ n) :
    s.bytesFrom n p = bs ++ s.bytesFrom (n - bs.length) (p + bs.length) := by
  induction bs generalizing p n with
  | nil => rfl
  | cons b bs ih =>
    obtain ⟨⟨hp, hb⟩, hrest⟩ := Pseudocode.codeAt_cons.mp h
    cases n with
    | zero => simp at hn
    | succ n =>
      simp only [List.length_cons, Nat.add_le_add_iff_right] at hn
      rw [State.bytesFrom, if_pos hp, hb, ih hrest hn, List.length_cons, Nat.add_sub_add_right,
        List.cons_append, Nat.add_right_comm, Nat.add_assoc]

theorem State.length_bytesFrom (s : State) (n a : Nat) :
    (s.bytesFrom n a).length = min n (s.memSize - a) := by
  induction n generalizing a with
  | zero => simp [State.bytesFrom]
  | succ n ih =>
    rw [State.bytesFrom]
    split
    · rw [List.length_cons, ih]; omega
    · rw [List.length_nil]; omega

theorem State.fetch_of_codeAt {s : State} {i : Instr}
    (h : Pseudocode.codeAt s s.pc.toNat (encode i)) : s.fetch = .instr i := by
  have hlen : (encode i).length ≤ 3 := length_encode i ▸ i.length_le_three
  rw [State.fetch, State.codeWindow, State.bytesFrom_of_codeAt h hlen, decode_encode_append]

theorem step_of_codeAt {s : State} {i : Instr} (hs : s.status = .running)
    (h : Pseudocode.codeAt s s.pc.toNat (encode i)) : step s = exec i s :=
  step_of_fetch_instr hs (State.fetch_of_codeAt h)

theorem step_of_fetch_raised {s : State} {e : Fault} (hs : s.status = .running)
    (hf : s.fetch = .raised e) : step s = .next (s.takeError e) := by
  simp only [step, if_pos hs, hf]

theorem State.fetch_of_pc_past_memory {s : State} (h : s.memSize ≤ s.pc.toNat) :
    s.fetch = .raised (.outOfBounds s.pc) := by
  have hw : s.codeWindow = [] := if_neg (Nat.not_lt.mpr h)
  rw [State.fetch, hw, decode]

/-- An instruction cut short by the end of memory is decoded up to its first missing byte. -/
theorem State.fetch_of_missing_operand {s : State} {o : Opcode} {k : Nat}
    (hop : opcodeOf (s.mem.read s.pc.toNat) = some o) (hk : 1 ≤ k) (hko : k ≤ o.operands)
    (hend : s.pc.toNat + k = s.memSize) :
    s.fetch = .raised (.outOfBounds (s.pc + BitVec.ofNat 9 k)) := by
  have htwo : o.operands ≤ 2 := by cases o <;> decide
  have hlen : (s.bytesFrom 2 (s.pc.toNat + 1)).length + 1 = k := by
    rw [State.length_bytesFrom]; omega
  rw [State.fetch, State.codeWindow_eq_cons (by omega), decode_cons_of_assigned hop,
    decodeOperands_of_short (by omega), hlen]

theorem State.takeError_outOfBounds (s : State) (a : Addr) :
    s.takeError (.outOfBounds a) = Pseudocode.outOfBounds s a.toNat := by
  simp [State.takeError, Pseudocode.outOfBounds, Fault.status, Fault.info]

/-- Settles O7: the fetch is that instruction. -/
theorem stepRunsTheDecodedInstruction : Obligations.StepRunsTheDecodedInstruction :=
  fun _ _ hs h => step_of_codeAt hs h

/-- Settles O8: a stopped core, a stop and an instruction each answer one. -/
theorem everyStepAnswersANextState : Obligations.EveryStepAnswersANextState :=
  step_answers_next

/-- Settles O10: there is no byte to decode. -/
theorem opcodeFetchPastMemoryFails : Obligations.OpcodeFetchPastMemoryFails := by
  intro s hs hpc
  rw [step_of_fetch_raised hs (State.fetch_of_pc_past_memory hpc), State.takeError_outOfBounds]

/-- Settles O11: the fetch raises the error before the instruction executes. -/
theorem operandFetchPastMemoryFails : Obligations.OperandFetchPastMemoryFails := by
  intro s o k hs hop hk hko hend
  have hsize := s.memSize_bounds
  have haddr : (s.pc + BitVec.ofNat 9 k).toNat = s.pc.toNat + k := by
    rw [BitVec.toNat_add, BitVec.toNat_ofNat]; omega
  rw [step_of_fetch_raised hs (State.fetch_of_missing_operand hop hk hko hend),
    State.takeError_outOfBounds, haddr]

theorem checkReg_of_toNat_eq {r : Byte} {j : Fin 8} (h : r.toNat = j.val) :
    checkReg r = .ok j := by
  rw [checkReg_valid r (h ▸ j.isLt)]
  exact congrArg _ (Fin.ext h)

theorem State.memWrite_of_lt {s : State} {a : Addr} (h : a.toNat < s.memSize) (v : Byte) :
    s.memWrite a v = .ok { s with mem := s.mem.write a.toNat v } := if_pos h

theorem State.memWrite_of_le {s : State} {a : Addr} (h : s.memSize ≤ a.toNat) (v : Byte) :
    s.memWrite a v = .error (.outOfBounds a) := if_neg (Nat.not_lt.mpr h)

theorem State.memRead_of_lt {s : State} {a : Addr} (h : a.toNat < s.memSize) :
    s.memRead a = .ok (s.mem.read a.toNat) := if_pos h

theorem State.memRead_of_le {s : State} {a : Addr} (h : s.memSize ≤ a.toNat) :
    s.memRead a = .error (.outOfBounds a) := if_neg (Nat.not_lt.mpr h)

/-- An instruction whose checks pass commits its writes. -/
theorem exec_of_writes {i : Instr} {s w : State} (h : Writes i s w) :
    exec i s = .next (w.advance i.length) := by
  cases h with
  | ldi hr => simp only [exec, execLdi, checkReg_of_toNat_eq hr]; rfl
  | prn hr => simp only [exec, execPrn, checkReg_of_toNat_eq hr]; rfl
  | mul ha hb => simp only [exec, execMul, checkReg_of_toNat_eq ha, checkReg_of_toNat_eq hb]; rfl
  | push hr hm =>
    simp only [exec, execPush, checkReg_of_toNat_eq hr, bind, Except.bind, State.memWrite_of_lt hm]
    rfl
  | pop hr hm =>
    simp only [exec, execPop, checkReg_of_toNat_eq hr, bind, Except.bind, State.memRead_of_lt hm]
    rfl

/-- An instruction whose first failing check raises an error takes that error. -/
theorem exec_of_raises {i : Instr} {s : State} {e : Fault} (h : Raises i s e) :
    exec i s = .next (s.takeError e) := by
  cases h with
  | ldi h => simp only [exec, execLdi, checkReg_invalid _ h]; rfl
  | prn h => simp only [exec, execPrn, checkReg_invalid _ h]; rfl
  | mulFirst h => simp only [exec, execMul, checkReg_invalid _ h]; rfl
  | mulSecond ha h => simp only [exec, execMul, checkReg_valid _ ha, checkReg_invalid _ h]; rfl
  | push h => simp only [exec, execPush, checkReg_invalid _ h]; rfl
  | pushMem hr h =>
    simp only [exec, execPush, checkReg_valid _ hr, bind, Except.bind, State.memWrite_of_le h]
    rfl
  | pop h => simp only [exec, execPop, checkReg_invalid _ h]; rfl
  | popMem hr h =>
    simp only [exec, execPop, checkReg_valid _ hr, bind, Except.bind, State.memRead_of_le h]
    rfl

end Sys2Proof.Machine
end

section
/-! PROOFS. The step is the spec's pseudocode of a step (40_dispatch.md R95), and what a failed step
leaves (60_exceptions.md R161, R162). -/

namespace Sys2Proof

/-- The operation an instruction is of. -/
def Instr.opcode : Instr → Opcode
  | .ldi _ _ => .ldi
  | .prn _ => .prn
  | .hlt => .hlt
  | .mul _ _ => .mul
  | .push _ => .push
  | .pop _ => .pop

end Sys2Proof

namespace Sys2Proof.Machine

theorem spDec_eq_ofNat (x : Byte) : spDec x = BitVec.ofNat 8 ((x.toNat + 255) % 256) := by
  rw [spDec]; bv_omega

theorem spInc_eq_ofNat (x : Byte) : spInc x = BitVec.ofNat 8 ((x.toNat + 1) % 256) := by
  rw [spInc]; bv_omega

theorem State.sp_eq (s : State) : s.sp = s.regs[7] := rfl

theorem pushAddr_toNat (s : State) : (pushAddr s).toNat = (s.regs[7].toNat + 255) % 256 := by
  rw [pushAddr, stackAddr_toNat, spDec_eq_ofNat, State.sp_eq, BitVec.toNat_ofNat]
  exact Nat.mod_mod _ _

theorem popAddr_toNat (s : State) : (popAddr s).toNat = s.regs[7].toNat := stackAddr_toNat _

/-- What a PUSH stores, by its operand byte. -/
theorem pushValue_eq {r : Byte} {j : Fin 8} (h : r.toNat = j.val) (s : State) :
    pushValue j s = if r.toNat = 7 then spDec s.sp else s.getReg j := by
  simp only [pushValue, spIndex, Fin.ext_iff, h]
  rfl

theorem State.ofNat_pc_add (s : State) (n : Nat) :
    BitVec.ofNat 9 (s.pc.toNat + n) = s.pc + BitVec.ofNat 9 n := by
  rw [BitVec.ofNat_add, BitVec.ofNat_toNat, BitVec.setWidth_eq]

end Sys2Proof.Machine

namespace Sys2Proof.Pseudocode

open Sys2Proof.Machine

/-- The pseudocode's handler of an operation, for an instruction at `p`. -/
def handler : Opcode → State → Nat → State
  | .ldi => ldi
  | .prn => prn
  | .hlt => fun s _ => s.halt
  | .mul => mul
  | .push => push
  | .pop => pop

theorem withRead_of_lt {s : State} {a : Nat} (h : a < s.memSize) (next : Byte → State) :
    withRead s a next = next (s.mem.read a) := if_neg (Nat.not_le.mpr h)

theorem withRead_of_le {s : State} {a : Nat} (h : s.memSize ≤ a) (next : Byte → State) :
    withRead s a next = outOfBounds s a := if_pos h

theorem withReg_of_valid {r : Byte} {j : Fin 8} (h : r.toNat = j.val) (s : State)
    (next : Fin 8 → State) : withReg s r next = next j := by
  have hj : Fin.ofNat 8 r.toNat = j := by simp [h]
  rw [withReg, if_neg (by omega), hj]

theorem withReg_of_invalid {r : Byte} (h : 8 ≤ r.toNat) (s : State) (next : Fin 8 → State) :
    withReg s r next = s.takeError (.invalidRegister r) := if_pos (by omega)

theorem step_of_stopped {s : State} (hs : s.status ≠ .running) : step s = s := if_pos hs

theorem step_of_pc_past_memory {s : State} (hs : s.status = .running)
    (hpc : s.memSize ≤ s.pc.toNat) : step s = outOfBounds s s.pc.toNat := by
  rw [step, if_neg (not_not_intro hs)]
  exact withRead_of_le hpc _

theorem step_of_unassigned {s : State} (hs : s.status = .running) (hpc : s.pc.toNat < s.memSize)
    (hop : opcodeOf (s.mem.read s.pc.toNat) = none) :
    step s = s.haltUnknown (s.mem.read s.pc.toNat) := by
  obtain ⟨hldi, hprn, hhlt, hmul, hpush, hpop⟩ := (opcodeOf_eq_none _).mp hop
  rw [step, if_neg (not_not_intro hs)]
  simp only [withRead_of_lt hpc, hldi, hprn, hhlt, hmul, hpush, hpop, if_false]
  rfl

theorem step_of_assigned {s : State} {o : Opcode} (hs : s.status = .running)
    (hpc : s.pc.toNat < s.memSize) (hop : opcodeOf (s.mem.read s.pc.toNat) = some o) :
    step s = handler o s s.pc.toNat := by
  rw [step, if_neg (not_not_intro hs)]
  rcases (opcodeOf_eq_some _ o).mp hop with
    ⟨hb, rfl⟩ | ⟨hb, rfl⟩ | ⟨hb, rfl⟩ | ⟨hb, rfl⟩ | ⟨hb, rfl⟩ | ⟨hb, rfl⟩ <;>
  · simp only [withRead_of_lt hpc, hb]
    rfl

/-- The operation that stands at `p`, when an instruction's bytes do. -/
theorem opcodeOf_read_of_codeAt {s : State} {p : Nat} {i : Instr} (h : codeAt s p (encode i)) :
    p < s.memSize ∧ opcodeOf (s.mem.read p) = some i.opcode := by
  cases i <;>
  · obtain ⟨⟨hp, hb⟩, -⟩ := codeAt_cons.mp h
    exact ⟨hp, by rw [hb]; rfl⟩

theorem withRead_of_missing {s : State} {p k : Nat} (hk : k = 1) (hend : p + k = s.memSize)
    (next : Byte → State) : withRead s (p + 1) next = outOfBounds s (p + k) := by
  rw [withRead_of_le (by omega), hk]

theorem withRead_twice_of_missing {s : State} {p k : Nat} (hk : 1 ≤ k) (hk2 : k ≤ 2)
    (hend : p + k = s.memSize) (next : Byte → Byte → State) :
    (withRead s (p + 1) fun a => withRead s (p + 2) (next a)) = outOfBounds s (p + k) := by
  rcases (by omega : k = 1 ∨ k = 2) with hk1 | rfl
  · exact withRead_of_missing hk1 hend _
  · rw [withRead_of_lt (by omega), withRead_of_le (by omega)]

/-- The handlers read their operands in order, so the first missing one fails. -/
theorem handler_of_missing {s : State} {o : Opcode} {p k : Nat} (hk : 1 ≤ k)
    (hko : k ≤ o.operands) (hend : p + k = s.memSize) : handler o s p = outOfBounds s (p + k) := by
  cases o with
  | ldi => rw [handler, ldi]; exact withRead_twice_of_missing hk hko hend _
  | prn => rw [handler, prn]; exact withRead_of_missing (le_antisymm hko hk) hend _
  | hlt => exact absurd (hk.trans hko) (by decide)
  | mul => rw [handler, mul]; exact withRead_twice_of_missing hk hko hend _
  | push => rw [handler, push]; exact withRead_of_missing (le_antisymm hko hk) hend _
  | pop => rw [handler, pop]; exact withRead_of_missing (le_antisymm hko hk) hend _

/-- One operand read: the handler goes on with the byte that stands there. -/
theorem withRead_of_codeAt {s : State} {p : Nat} {op b : Byte} {bs : List Byte}
    (h : codeAt s p (op :: b :: bs)) (next : Byte → State) : withRead s (p + 1) next = next b := by
  obtain ⟨-, h⟩ := codeAt_cons.mp h
  obtain ⟨⟨hp, hb⟩, -⟩ := codeAt_cons.mp h
  rw [withRead_of_lt hp, hb]

theorem withRead_twice_of_codeAt {s : State} {p : Nat} {op a b : Byte} {bs : List Byte}
    (h : codeAt s p (op :: a :: b :: bs)) (next : Byte → Byte → State) :
    (withRead s (p + 1) fun x => withRead s (p + 2) (next x)) = next a b := by
  rw [withRead_of_codeAt h]
  exact withRead_of_codeAt (codeAt_cons.mp h).2 _

/-- The handler of an instruction whose bytes stand at PC makes the writes the model collects. -/
theorem handler_of_writes {i : Instr} {s w : State} (hcode : codeAt s s.pc.toNat (encode i))
    (hw : Writes i s w) : handler i.opcode s s.pc.toNat = w.advance i.length := by
  cases hw with
  | ldi hr =>
    simp only [handler, Instr.opcode, ldi]
    rw [withRead_twice_of_codeAt hcode, withReg_of_valid hr, State.ofNat_pc_add]
    rfl
  | prn hr =>
    simp only [handler, Instr.opcode, prn]
    rw [withRead_of_codeAt hcode, withReg_of_valid hr, State.ofNat_pc_add]
    rfl
  | mul ha hb =>
    simp only [handler, Instr.opcode, mul]
    rw [withRead_twice_of_codeAt hcode, withReg_of_valid ha, withReg_of_valid hb,
      State.ofNat_pc_add]
    rfl
  | push hr hm =>
    simp only [handler, Instr.opcode, push]
    rw [withRead_of_codeAt hcode, withReg_of_valid hr, ← pushAddr_toNat,
      if_neg (Nat.not_le.mpr hm), State.ofNat_pc_add, pushValue_eq hr, pushAddr_toNat,
      State.sp_eq, spDec_eq_ofNat]
    rfl
  | pop hr hm =>
    simp only [handler, Instr.opcode, pop]
    rw [popAddr_toNat] at hm ⊢
    rw [withRead_of_codeAt hcode, withReg_of_valid hr, withRead_of_lt hm, State.ofNat_pc_add,
      spInc_eq_ofNat]
    rfl

/-- The handler of an instruction whose bytes stand at PC raises the error the model raises. -/
theorem handler_of_raises {i : Instr} {s : State} {e : Fault}
    (hcode : codeAt s s.pc.toNat (encode i)) (he : Raises i s e) :
    handler i.opcode s s.pc.toNat = s.takeError e := by
  cases he with
  | ldi h =>
    simp only [handler, Instr.opcode, ldi]
    rw [withRead_twice_of_codeAt hcode, withReg_of_invalid h]
  | prn h =>
    simp only [handler, Instr.opcode, prn]
    rw [withRead_of_codeAt hcode, withReg_of_invalid h]
  | mulFirst h =>
    simp only [handler, Instr.opcode, mul]
    rw [withRead_twice_of_codeAt hcode, withReg_of_invalid h]
  | mulSecond ha h =>
    simp only [handler, Instr.opcode, mul]
    rw [withRead_twice_of_codeAt hcode, withReg_of_valid (j := ⟨_, ha⟩) rfl, withReg_of_invalid h]
  | push h =>
    simp only [handler, Instr.opcode, push]
    rw [withRead_of_codeAt hcode, withReg_of_invalid h]
  | pushMem hr h =>
    simp only [handler, Instr.opcode, push]
    rw [withRead_of_codeAt hcode, withReg_of_valid (j := ⟨_, hr⟩) rfl, ← pushAddr_toNat, if_pos h,
      State.takeError_outOfBounds]
  | pop h =>
    simp only [handler, Instr.opcode, pop]
    rw [withRead_of_codeAt hcode, withReg_of_invalid h]
  | popMem hr h =>
    rw [State.takeError_outOfBounds, popAddr_toNat]
    rw [popAddr_toNat] at h
    simp only [handler, Instr.opcode, pop]
    rw [withRead_of_codeAt hcode, withReg_of_valid (j := ⟨_, hr⟩) rfl, withRead_of_le h]

theorem step_of_codeAt {s : State} {i : Instr} (hs : s.status = .running)
    (h : codeAt s s.pc.toNat (encode i)) : step s = handler i.opcode s s.pc.toNat :=
  have ⟨hpc, hop⟩ := opcodeOf_read_of_codeAt h
  step_of_assigned hs hpc hop

end Sys2Proof.Pseudocode

namespace Sys2Proof.Machine

/-- The model's fetch splits a running core's step as the pseudocode's reads do; an instruction
fetched whole then halts, completes or fails in its handler. -/
theorem step_eq_pseudocode_of_running {s : State} (hs : s.status = .running) :
    step s = .next (Pseudocode.step s) := by
  rcases s.fetch_cases with ⟨hpc, -⟩ | ⟨hpc, hop, -⟩ | ⟨o, k, hpc, hop, hk, hko, hend, -⟩ |
    ⟨i, -, -, -, hf⟩
  · rw [opcodeFetchPastMemoryFails s hs hpc, Pseudocode.step_of_pc_past_memory hs hpc]
  · rw [step_of_fetch_unassigned hs (State.fetch_of_unassigned hpc hop),
      Pseudocode.step_of_unassigned hs hpc hop]
  · rw [operandFetchPastMemoryFails s o k hs hop hk hko hend,
      Pseudocode.step_of_assigned hs hpc hop, Pseudocode.handler_of_missing hk hko hend]
  · have hcode := State.codeAt_of_fetch hf
    rw [step_of_codeAt hs hcode, Pseudocode.step_of_codeAt hs hcode]
    rcases exec_cases i s with ⟨rfl, hx⟩ | ⟨w, hw, hx⟩ | ⟨e, he, hx⟩
    · exact hx
    · rw [hx, Pseudocode.handler_of_writes hcode hw]
    · rw [hx, Pseudocode.handler_of_raises hcode he]

theorem step_eq_pseudocode (s : State) : step s = .next (Pseudocode.step s) := by
  by_cases hs : s.status = .running
  · exact step_eq_pseudocode_of_running hs
  · rw [step_of_stopped hs, Pseudocode.step_of_stopped hs]

/-- Settles O6: the port answers the step's next state. -/
theorem stepIsThePseudocode : Obligations.StepIsThePseudocode := by
  intro s
  have hport : s.stepped = Pseudocode.step s :=
    Host.Outcome.next.inj ((step_eq_next_stepped s).symm.trans (step_eq_pseudocode s))
  refine ⟨step_eq_pseudocode s, ?_⟩
  rw [State.call, State.stepPort, hport]

theorem Raises.status_ne_unsupportedOperation {i : Instr} {s : State} {e : Fault}
    (h : Raises i s e) :
    e.status ≠ .failedUnsupportedOperation := by
  cases h <;> simp [Fault.status]

theorem State.fetch_raised_status {s : State} {e : Fault} (hf : s.fetch = .raised e) :
    e.status = .failedOutOfBounds := by
  rcases s.fetch_cases with ⟨-, hu⟩ | ⟨-, -, hu⟩ | ⟨o, k, -, -, -, -, -, hu⟩ | ⟨i, rest, -, -, hu⟩
  · obtain rfl := Fetched.raised.inj (hf.symm.trans hu); rfl
  · simp [hf] at hu
  · obtain rfl := Fetched.raised.inj (hf.symm.trans hu); rfl
  · simp [hf] at hu

/-- Settles O13: of the ways a step ends, only the taken error is a failure. -/
theorem failedStepCommitsNothing : Obligations.FailedStepCommitsNothing := by
  intro s t hs h hfailed
  rcases step_running_cases hs h with ⟨i, w, -, hw, rfl⟩ | ⟨-, rfl⟩ | ⟨b, -, rfl⟩ | ⟨e, -, rfl⟩
  · simp [hw.status_eq, hs, Status.failed] at hfailed
  · simp [Status.failed] at hfailed
  · simp [Status.failed] at hfailed
  · rfl

/-- Settles O14: a fetch raises OutOfBounds, and no instruction raises UnsupportedOperation. -/
theorem stepNeverRaisesUnsupportedOperation : Obligations.StepNeverRaisesUnsupportedOperation := by
  intro s t hs h
  rcases step_running_cases hs h with
    ⟨i, w, -, hw, rfl⟩ | ⟨-, rfl⟩ | ⟨b, -, rfl⟩ | ⟨e, hf | ⟨i, -, he⟩, rfl⟩
  · simp [hw.status_eq, hs]
  · simp
  · simp
  · simp [State.fetch_raised_status hf]
  · exact he.status_ne_unsupportedOperation

end Sys2Proof.Machine
end

section
/-! PROOFS. What each instruction does, from its writes and from its errors (41_load_print.md,
42_alu.md, 43_stack.md). -/

namespace Sys2Proof.Machine

theorem toNat_eq_seven_iff {r : Byte} : r.toNat = 7 ↔ r = 7 := by
  bv_omega

/-- What a PUSH stores, by its operand byte as the obligations compare it. -/
theorem pushValue_eq_ite {r : Byte} (h : r.toNat < 8) (s : State) :
    pushValue ⟨r.toNat, h⟩ s = if r = 7 then spDec s.sp else s.regs[r.toNat] := by
  rw [pushValue_eq (r := r) rfl]
  simp only [toNat_eq_seven_iff]
  rfl

/-- PUSH's two writes are the cell below the top and R7. -/
theorem exec_push_of_valid {r : Byte} {s : State} (h : r.toNat < 8)
    (hm : (pushAddr s).toNat < s.memSize) :
    exec (.push r) s = .next { s with
      mem := s.mem.write (pushAddr s).toNat (pushValue ⟨r.toNat, h⟩ s)
      regs := s.regs.set 7 (spDec s.sp)
      pc := s.pc + 2 } :=
  exec_of_writes (.push (j := ⟨_, h⟩) rfl hm)

/-- The registers a POP of register `j` leaves, `v` being the top of the stack: R7 is incremented as
the first write left it (43_stack.md R147). -/
def State.popRegs (s : State) (j : Fin 8) (v : Byte) : Vector Byte 8 :=
  (s.regs.set j v).set 7 (spInc (s.regs.set j v)[7])

theorem exec_pop_of_valid {r : Byte} {s : State} (h : r.toNat < 8)
    (hm : (popAddr s).toNat < s.memSize) :
    exec (.pop r) s = .next { s with
      regs := s.popRegs ⟨r.toNat, h⟩ (s.mem.read (popAddr s).toNat)
      pc := s.pc + 2 } :=
  exec_of_writes (.pop (j := ⟨_, h⟩) rfl hm)

theorem State.getElem_popRegs (s : State) (j : Fin 8) (v : Byte) {k : Nat} (hk : k < 8) :
    (s.popRegs j v)[k] = if k = 7 then spInc (if j = 7 then v else s.regs[7])
      else if k = j then v else s.regs[k] := by
  simp only [State.popRegs, Vector.getElem_set, Fin.ext_iff, eq_comm (a := k)]
  rfl

/-- Settles O20: the bytes are LDI's, so the step is its execution, and the advance is exact. -/
theorem ldiLawHoldsOfTheStep : Obligations.LdiLawHoldsOfTheStep := by
  intro r v s h hs hcode
  have hcode : Pseudocode.codeAt s s.pc.toNat (encode (.ldi r v)) := hcode
  refine ⟨_, (step_of_codeAt hs hcode).trans (exec_ldi_of_valid h v s), ?_,
    State.pc_add_length_toNat hcode, fun j hj => ?_, hs, rfl, rfl⟩
  · exact Vector.getElem_set_self h
  · exact State.getReg_setReg_other s _ j v (Fin.ne_of_val_ne hj)

/-- Settles O21: PRN's one write is the event. -/
theorem prnPrintsTheRegister : Obligations.PrnPrintsTheRegister :=
  fun _ _ h => exec_of_writes (.prn (j := ⟨_, h⟩) rfl)

/-- Settles O22: MUL's one write is the event, and the product of two bytes fits 16 bits. -/
theorem mulEmitsTheExactProduct : Obligations.MulEmitsTheExactProduct :=
  fun _ _ _ ha hb =>
    ⟨_, exec_of_writes (.mul (j := ⟨_, ha⟩) (k := ⟨_, hb⟩) rfl rfl), aluMul_toNat _ _⟩

/-- Settles O24, by reading the one cell PUSH writes and any other. -/
theorem pushStoresBelowTheTop : Obligations.PushStoresBelowTheTop := by
  refine fun r s h hm => ⟨_, exec_push_of_valid h hm, pushAddr_toNat s, ?_,
    fun a ha => Memory.read_write_other _ _ _ _ ha⟩
  rw [Memory.read_write_self, pushValue_eq_ite h]
  rfl

/-- Settles O25: the store raises the error before anything is committed. -/
theorem pushPastMemoryFails : Obligations.PushPastMemoryFails := by
  intro r s h hm
  rw [exec_of_raises (.pushMem h hm), State.takeError_outOfBounds, pushAddr_toNat]

/-- Settles O26, register by register. -/
theorem popLoadsTheTop : Obligations.PopLoadsTheTop := by
  intro r s h hm
  rw [← popAddr_toNat] at hm
  refine ⟨_, exec_pop_of_valid h hm, fun hr => ?_, fun hr => ?_, fun j hjr hj7 => ?_⟩
  · have hr : r.toNat ≠ 7 := mt toNat_eq_seven_iff.mp hr
    simp [State.getElem_popRegs, Fin.ext_iff, hr, popAddr_toNat, spInc]
  · subst hr
    simp [State.getElem_popRegs, popAddr_toNat, spInc]
  · have hj7 : j.val ≠ 7 := Fin.val_ne_of_ne hj7
    simp [State.getElem_popRegs, hj7, hjr]

/-- Settles O27: the read raises the error before anything is committed. -/
theorem popPastMemoryFails : Obligations.PopPastMemoryFails := by
  intro r s h hm
  rw [← popAddr_toNat] at hm
  rw [exec_of_raises (.popMem h hm), State.takeError_outOfBounds, popAddr_toNat]

/-- Settles O28: the register check, and in each instruction its place before every other check. -/
theorem invalidRegisterIsReported : Obligations.InvalidRegisterIsReported := by
  refine ⟨fun i hi => checkReg_of_toNat_eq ?_, fun s r hr => ⟨checkReg_invalid r hr, fun v => ?_,
    ?_, fun b => ?_, fun a ha => ?_, ?_, ?_⟩⟩
  · exact (Nat.mod_eq_of_lt (Nat.lt_succ_of_le hi)).symm
  · exact exec_of_raises (.ldi hr)
  · exact exec_of_raises (.prn hr)
  · exact exec_of_raises (.mulFirst hr)
  · exact exec_of_raises (.mulSecond (Nat.lt_succ_of_le ha) hr)
  · exact exec_of_raises (.push hr)
  · exact exec_of_raises (.pop hr)

/-- Settles O32: 8-bit arithmetic is arithmetic mod 256. -/
theorem stackPointerArithmeticIsModular : Obligations.StackPointerArithmeticIsModular := by
  refine fun x => ⟨?_, ?_, spInc_spDec x, by simp [spInc, spDec]⟩
  · rw [spDec_eq_ofNat, BitVec.toNat_ofNat]
    split <;> omega
  · rw [spInc_eq_ofNat, BitVec.toNat_ofNat]
    split <;> omega

/-- Settles O35: R7 = 0 decrements to 255, which is past 255 cells and the last of 256. -/
theorem firstPushFromResetFails : Obligations.FirstPushFromResetFails := fun r h =>
  ⟨pushPastMemoryFails r State.reset h (by decide),
    _, exec_of_writes (.push (j := ⟨_, h⟩) rfl (by decide)), State.getReg_setReg_self _ _ _, rfl⟩

theorem aluAdd_toNat (x y : Byte) : (aluAdd x y).toNat = (x.toNat + y.toNat) % 256 :=
  BitVec.toNat_ofNat _ 8

/-- Settles O37: two bytes' product fits 16 bits, and their sum is cut to 8. -/
theorem aluFunctionsAreExactAndModular : Obligations.AluFunctionsAreExactAndModular :=
  fun x y => ⟨aluMul_toNat x y, aluMul_bound x y, aluAdd_toNat x y⟩

end Sys2Proof.Machine
end

section
/-! PROOFS. What each instruction, and a step, leaves unchanged: registers, memory, OUT, STATUS. -/

namespace Sys2Proof.Machine

/-- What an instruction leaves when it answers `t`: `exec_cases` for a given answer. -/
theorem exec_next_cases {i : Instr} {s t : State} (h : exec i s = .next t) :
    (i = .hlt ∧ t = s.halt) ∨ (∃ w, Writes i s w ∧ t = w.advance i.length) ∨
      (∃ e, Raises i s e ∧ t = s.takeError e) := by
  rcases exec_cases i s with ⟨hi, hx⟩ | ⟨w, hw, hx⟩ | ⟨e, he, hx⟩
  · exact .inl ⟨hi, Host.Outcome.next.inj (h.symm.trans hx)⟩
  · exact .inr (.inl ⟨w, hw, Host.Outcome.next.inj (h.symm.trans hx)⟩)
  · exact .inr (.inr ⟨e, he, Host.Outcome.next.inj (h.symm.trans hx)⟩)

/-- An instruction leaves a register alone that its writes leave alone. -/
theorem exec_getReg {i : Instr} {s t : State} (h : exec i s = .next t) (j : Fin 8)
    (hw : ∀ w, Writes i s w → w.getReg j = s.getReg j) : t.getReg j = s.getReg j := by
  rcases exec_next_cases h with ⟨-, rfl⟩ | ⟨w, hwrites, rfl⟩ | ⟨e, -, rfl⟩
  · rfl
  · exact hw w hwrites
  · rfl

/-- Settles O29, by the register writes of each instruction. -/
theorem registerFrame : Obligations.RegisterFrame := by
  refine ⟨fun r v s t h j hj => ?_, fun r s t h j hj => ?_, fun r s t h j hjr hj => ?_,
    fun r s t h j => ?_, fun a b s t h j => ?_, fun s t h j => ?_⟩ <;>
    refine exec_getReg h j fun w hw => ?_ <;> cases hw
  case refine_1.ldi k hr => exact State.getReg_setReg_other _ _ _ _ (Fin.ne_of_val_ne (hr ▸ hj))
  case refine_2.push k hr hm => exact State.getReg_setReg_other _ _ _ _ hj
  case refine_3.pop k hr hm =>
    rw [State.getReg_setReg_other _ spIndex _ _ hj,
      State.getReg_setReg_other _ _ _ _ (Fin.ne_of_val_ne (hr ▸ hjr))]
  case refine_4.prn k hr => rfl
  case refine_5.mul k l ha hb => rfl

/-- The one write of memory is PUSH's. -/
theorem Writes.mem_cases {i : Instr} {s w : State} (h : Writes i s w) :
    (∃ r v, i = .push r ∧ w.mem = s.mem.write (pushAddr s).toNat v) ∨
      ((∀ r, i ≠ .push r) ∧ w.mem = s.mem) := by
  cases h with
  | push hr hm => exact .inl ⟨_, _, rfl, rfl⟩
  | ldi hr => exact .inr ⟨by simp, rfl⟩
  | prn hr => exact .inr ⟨by simp, rfl⟩
  | mul ha hb => exact .inr ⟨by simp, rfl⟩
  | pop hr hm => exact .inr ⟨by simp, rfl⟩

/-- Writes that change a cell are a PUSH's, and the cell is the one it addresses. -/
theorem Writes.eq_push_of_read_ne {i : Instr} {s w : State} {a : Nat} (h : Writes i s w)
    (hne : w.mem.read a ≠ s.mem.read a) : (∃ r, i = .push r) ∧ a = (pushAddr s).toNat := by
  rcases h.mem_cases with ⟨r, v, hi, hmem⟩ | ⟨-, hmem⟩
  · refine ⟨⟨r, hi⟩, ?_⟩
    by_contra ha
    exact hne (by rw [hmem, Memory.read_write_other _ _ _ _ ha])
  · exact absurd (by rw [hmem]) hne

/-- An instruction that changes a cell is a PUSH that completes, and the cell is the one it
addresses. -/
theorem exec_eq_push_of_read_ne {i : Instr} {s t : State} {a : Nat} (h : exec i s = .next t)
    (hne : t.mem.read a ≠ s.mem.read a) :
    (∃ r, i = .push r) ∧ a = (pushAddr s).toNat ∧ t.status = s.status := by
  rcases exec_next_cases h with ⟨-, rfl⟩ | ⟨w, hw, rfl⟩ | ⟨e, -, rfl⟩
  · exact absurd rfl hne
  · obtain ⟨hi, ha⟩ := hw.eq_push_of_read_ne hne
    exact ⟨hi, ha, hw.status_eq⟩
  · exact absurd rfl hne

/-- Settles O30: each clause denies one part of what a changed cell implies. -/
theorem memoryFrame : Obligations.MemoryFrame := by
  refine ⟨fun r s t h a ha => ?_, fun r s t h hst a => ?_, fun i s t h hi a => ?_⟩ <;>
    by_contra hne <;> obtain ⟨⟨r, hpush⟩, haddr, hstatus⟩ := exec_eq_push_of_read_ne h hne
  · exact ha haddr
  · exact hst hstatus
  · exact hi r hpush

/-- Settles O16: the step is that of an instruction at PC, whose writes change the cell. -/
theorem stepWritesMemoryOnlyByPush : Obligations.StepWritesMemoryOnlyByPush := by
  intro s t a h hne
  by_cases hs : s.status = .running
  · rcases step_running_cases hs h with
      ⟨i, w, hcode, hw, rfl⟩ | ⟨-, rfl⟩ | ⟨b, -, rfl⟩ | ⟨e, -, rfl⟩
    · obtain ⟨⟨r, rfl⟩, ha⟩ := hw.eq_push_of_read_ne hne
      exact ⟨r, hcode, ha, hw.status_eq.trans hs⟩
    all_goals exact absurd rfl hne
  · exact absurd (by rw [eq_of_step_of_stopped hs h]) hne

/-- The writes of OUT are PRN's and MUL's one event each. -/
theorem Writes.out_cases {i : Instr} {s w : State} (h : Writes i s w) :
    ((∀ r, i ≠ .prn r) ∧ (∀ a b, i ≠ .mul a b) ∧ w.out = s.out) ∨
      (∃ r v, i = .prn r ∧ w.out = s.out ++ [.print v]) ∨
      (∃ a b p, i = .mul a b ∧ w.out = s.out ++ [.mulResult p]) := by
  cases h with
  | prn hr => exact .inr (.inl ⟨_, _, rfl, rfl⟩)
  | mul ha hb => exact .inr (.inr ⟨_, _, _, rfl, rfl⟩)
  | ldi hr => exact .inl ⟨by simp, by simp, rfl⟩
  | push hr hm => exact .inl ⟨by simp, by simp, rfl⟩
  | pop hr hm => exact .inl ⟨by simp, by simp, rfl⟩

/-- Settles O17: the step is that of an instruction at PC, or appends nothing. -/
theorem outputIsAppendOnly : Obligations.OutputIsAppendOnly := by
  intro s t h
  by_cases hs : s.status = .running
  · rcases step_running_cases hs h with
      ⟨i, w, hcode, hw, rfl⟩ | ⟨-, rfl⟩ | ⟨b, -, rfl⟩ | ⟨e, -, rfl⟩
    · rcases hw.out_cases with ⟨-, -, hout⟩ | ⟨r, v, rfl, hout⟩ | ⟨a, b, p, rfl, hout⟩
      · exact .inl hout
      · exact .inr (.inl ⟨r, v, hcode, hout⟩)
      · exact .inr (.inr ⟨a, b, p, hcode, hout⟩)
    all_goals exact .inl rfl
  · exact .inl (by rw [eq_of_step_of_stopped hs h])

theorem Writes.lastAddr_eq {i : Instr} {s w : State} (h : Writes i s w) :
    w.lastAddr = s.lastAddr := by
  cases h <;> rfl

theorem Writes.faultInfo_eq {i : Instr} {s w : State} (h : Writes i s w) :
    w.faultInfo = s.faultInfo := by
  cases h <;> rfl

/-- Settles O31, a case for each way an instruction ends. -/
theorem statusAndOutputFrame : Obligations.StatusAndOutputFrame := by
  intro i s t h
  rcases exec_next_cases h with ⟨rfl, rfl⟩ | ⟨w, hw, rfl⟩ | ⟨e, -, rfl⟩
  · exact ⟨rfl, fun _ _ => rfl, fun hi => absurd rfl hi⟩
  · refine ⟨hw.lastAddr_eq, fun hprn hmul => ?_, fun _ => .inl ⟨hw.status_eq, hw.faultInfo_eq⟩⟩
    rcases hw.out_cases with ⟨-, -, hout⟩ | ⟨r, v, hi, -⟩ | ⟨a, b, p, hi, -⟩
    · exact hout
    · exact absurd hi (hprn r)
    · exact absurd hi (hmul a b)
  · exact ⟨rfl, fun _ _ => rfl, fun _ => .inr ⟨e.failed_status, rfl⟩⟩

end Sys2Proof.Machine
end

section
/-! PROOFS. OUT is written and never read: two cores that differ in OUT alone fetch alike and
execute alike (10_state.md section 7). -/

namespace Sys2Proof.Machine

/-- The core that has printed other events. -/
def State.withOut (s : State) (events : List OutEvent) : State := { s with out := events }

theorem State.fetch_withOut (s : State) (events : List OutEvent) :
    (s.withOut events).fetch = s.fetch := rfl

theorem Writes.withOut {i : Instr} {s w : State} (h : Writes i s w) :
    ∃ new, ∀ events, Writes i (s.withOut events) (w.withOut (events ++ new)) := by
  cases h with
  | @prn r _ j hr => exact ⟨[.print (s.getReg j)], fun _ => .prn hr⟩
  | @mul a b _ j k ha hb =>
    exact ⟨[.mulResult (aluMul (s.getReg j) (s.getReg k))], fun _ => .mul ha hb⟩
  | ldi hr => exact ⟨[], fun events => (List.append_nil events).symm ▸ .ldi hr⟩
  | push hr hm => exact ⟨[], fun events => (List.append_nil events).symm ▸ .push hr hm⟩
  | pop hr hm => exact ⟨[], fun events => (List.append_nil events).symm ▸ .pop hr hm⟩

theorem Raises.withOut {i : Instr} {s : State} {e : Fault} (h : Raises i s e)
    (events : List OutEvent) : Raises i (s.withOut events) e := by
  cases h with
  | ldi h => exact .ldi h
  | prn h => exact .prn h
  | mulFirst h => exact .mulFirst h
  | mulSecond ha h => exact .mulSecond ha h
  | push h => exact .push h
  | pushMem hr h => exact .pushMem hr h
  | pop h => exact .pop h
  | popMem hr h => exact .popMem hr h

/-- `f` answers alike whatever was printed, and appends the same events. -/
def IgnoresOut (f : State → StepResult) (s : State) : Prop :=
  ∃ t new, ∀ events, f (s.withOut events) = .next (State.withOut t (events ++ new))

/-- An answer that appends nothing. -/
theorem IgnoresOut.of_unchanged {f : State → StepResult} {s t : State}
    (h : ∀ events, f (s.withOut events) = .next (t.withOut events)) : IgnoresOut f s :=
  ⟨t, [], fun events => by rw [List.append_nil, h]⟩

theorem exec_ignoresOut (i : Instr) (s : State) : IgnoresOut (exec i) s := by
  rcases exec_cases i s with ⟨rfl, -⟩ | ⟨w, hw, -⟩ | ⟨e, he, -⟩
  · exact .of_unchanged (t := s.halt) fun _ => rfl
  · obtain ⟨new, hall⟩ := hw.withOut
    exact ⟨w.advance i.length, new, fun events => exec_of_writes (hall events)⟩
  · exact .of_unchanged (t := s.takeError e) fun events => exec_of_raises (he.withOut events)

theorem step_ignoresOut (s : State) : IgnoresOut step s := by
  by_cases hs : s.status = .running
  · have hrun (ev) : (s.withOut ev).status = .running := hs
    rcases hf : s.fetch with i | b | e
    all_goals have hfetch (ev) := (s.fetch_withOut ev).trans hf
    · obtain ⟨t, new, h⟩ := exec_ignoresOut i s
      exact ⟨t, new, fun ev => (step_of_fetch_instr (hrun ev) (hfetch ev)).trans (h ev)⟩
    · exact .of_unchanged (t := s.haltUnknown b) fun ev =>
        step_of_fetch_unassigned (hrun ev) (hfetch ev)
    · exact .of_unchanged (t := s.takeError e) fun ev =>
        step_of_fetch_raised (hrun ev) (hfetch ev)
  · exact .of_unchanged (t := s) fun _ => step_of_stopped hs

/-- Settles O18: the answer is one for all events printed before, its own among them. -/
theorem outputDoesNotInfluenceSteps : Obligations.OutputDoesNotInfluenceSteps := by
  intro s other
  obtain ⟨t, new, h⟩ := step_ignoresOut s
  exact ⟨t, new, h s.out, h other⟩

end Sys2Proof.Machine
end

section
/-! PROOFS. A PUSH and what runs after it: a POP (43_stack.md R148, R149), or the byte it pushed
(20_memory.md R64). -/

namespace Sys2Proof.Pseudocode

open Sys2Proof.Machine

theorem codeAt_append {s : State} {p : Nat} {xs ys : List Byte} (h : codeAt s p (xs ++ ys)) :
    codeAt s p xs ∧ codeAt s (p + xs.length) ys := by
  obtain ⟨hend, hread⟩ := h
  rw [List.length_append] at hend
  refine ⟨⟨by omega, fun k hk => ?_⟩, by omega, fun k hk => ?_⟩
  · rw [hread k (by rw [List.length_append]; omega), List.getElem_append_left hk]
  · rw [Nat.add_assoc, hread (xs.length + k) (by rw [List.length_append]; omega),
      List.getElem_append_right (Nat.le_add_right _ _)]
    simp only [Nat.add_sub_cancel_left]

end Sys2Proof.Pseudocode

namespace Sys2Proof.Machine

/-- The byte a PUSH of register `r` stores, as the obligations write it. -/
def State.pushByte (s : State) (r : Byte) (h : r.toNat < 8) : Byte :=
  if r = 7 then spDec s.sp else s.regs[r.toNat]

/-- The state a PUSH leaves that stores `v`. -/
def State.pushed (s : State) (v : Byte) : State :=
  { s with
    mem := s.mem.write (spDec s.sp).toNat v
    regs := s.regs.set 7 (spDec s.sp)
    pc := s.pc + 2 }

@[simp] theorem State.pushed_sp (s : State) (v : Byte) : (s.pushed v).sp = spDec s.sp :=
  State.getReg_setReg_self s 7 _

theorem State.read_pushed_self (s : State) (v : Byte) :
    (s.pushed v).mem.read (spDec s.sp).toNat = v := Memory.read_write_self _ _ _

theorem State.read_pushed_other (s : State) (v : Byte) {a : Nat} (h : a ≠ (spDec s.sp).toNat) :
    (s.pushed v).mem.read a = s.mem.read a := Memory.read_write_other _ _ _ _ h

theorem State.pushed_pc_toNat {s : State} {r : Byte}
    (hcode : Pseudocode.codeAt s s.pc.toNat [0x45, r]) (v : Byte) :
    (s.pushed v).pc.toNat = s.pc.toNat + 2 :=
  State.pc_add_length_toNat (i := .push r) hcode

theorem step_push {s : State} {r : Byte} (h : r.toNat < 8) (hs : s.status = .running)
    (hcode : Pseudocode.codeAt s s.pc.toNat [0x45, r]) (hm : (spDec s.sp).toNat < s.memSize) :
    step s = .next (s.pushed (s.pushByte r h)) := by
  have haddr : (pushAddr s).toNat = (spDec s.sp).toNat := stackAddr_toNat _
  rw [step_of_codeAt (i := .push r) hs hcode, exec_push_of_valid h (haddr ▸ hm), haddr,
    pushValue_eq_ite]
  rfl

/-- Code that a PUSH does not store into stands after it as before. -/
theorem State.codeAt_pushed {s : State} {p : Nat} {bs : List Byte} (v : Byte)
    (hcode : Pseudocode.codeAt s p bs)
    (hother : ∀ k, k < bs.length → p + k ≠ (spDec s.sp).toNat) :
    Pseudocode.codeAt (s.pushed v) p bs :=
  Pseudocode.codeAt_of_read_eq hcode rfl fun k hk => s.read_pushed_other v (hother k hk)

/-- The state a POP of register `j` leaves after a PUSH that stored `v`. -/
def State.pushedPopped (s : State) (v : Byte) (j : Fin 8) : State :=
  { s.pushed v with regs := (s.pushed v).popRegs j v, pc := (s.pushed v).pc + 2 }

/-- A POP right after a PUSH loads what the PUSH stored. -/
theorem step_pop_of_pushed {s : State} {v b : Byte} (hb : b.toNat < 8) (hs : s.status = .running)
    (hcode : Pseudocode.codeAt (s.pushed v) (s.pushed v).pc.toNat [0x46, b])
    (hm : (spDec s.sp).toNat < s.memSize) :
    step (s.pushed v) = .next (s.pushedPopped v ⟨b.toNat, hb⟩) := by
  have haddr : (popAddr (s.pushed v)).toNat = (spDec s.sp).toNat := by
    rw [popAddr, stackAddr_toNat, State.pushed_sp]
  rw [step_of_codeAt (s := s.pushed v) (i := .pop b) hs hcode,
    exec_pop_of_valid hb (haddr ▸ hm), haddr, State.read_pushed_self]
  rfl

/-- PUSH then POP, of any two registers, when the PUSH does not store into the POP's bytes. -/
theorem step_push_pop {s : State} {a b : Byte} (ha : a.toNat < 8) (hb : b.toNat < 8)
    (hs : s.status = .running) (hcode : Pseudocode.codeAt s s.pc.toNat [0x45, a, 0x46, b])
    (hm : (spDec s.sp).toNat < s.memSize) (h2 : (spDec s.sp).toNat ≠ s.pc.toNat + 2)
    (h3 : (spDec s.sp).toNat ≠ s.pc.toNat + 3) :
    let v := s.pushByte a ha
    step s = .next (s.pushed v) ∧ step (s.pushed v) = .next (s.pushedPopped v ⟨b.toNat, hb⟩) ∧
      (s.pushedPopped v ⟨b.toNat, hb⟩).pc.toNat = s.pc.toNat + 4 := by
  intro v
  obtain ⟨hpush, hpop⟩ := Pseudocode.codeAt_append (xs := [0x45, a]) hcode
  have hpc := State.pushed_pc_toNat hpush v
  have hpop : Pseudocode.codeAt (s.pushed v) (s.pushed v).pc.toNat (encode (.pop b)) := by
    rw [hpc]
    refine State.codeAt_pushed v hpop fun k (hk : k < 2) => ?_
    omega
  refine ⟨step_push ha hs hpush hm, step_pop_of_pushed hb hs hpop hm, ?_⟩
  exact (State.pc_add_length_toNat hpop).trans (congrArg (· + 2) hpc)

/-- The registers after PUSH and POP: R7 is back unless the POP loaded it. -/
theorem State.getElem_pushedPopped_regs (s : State) (v : Byte) (j : Fin 8) {k : Nat} (hk : k < 8) :
    (s.pushedPopped v j).regs[k] = if k = 7 then (if j = 7 then spInc v else s.regs[7])
      else if k = j then v else s.regs[k] := by
  have hsp : spInc (spDec s.sp) = s.regs[7] := spInc_spDec _
  have hregs : (s.pushed v).regs = s.regs.set 7 (spDec s.sp) := rfl
  simp only [State.pushedPopped, State.getElem_popRegs, hregs, Vector.getElem_set]
  split_ifs <;> simp_all

theorem fin_eq_seven_iff {r : Byte} (h : r.toNat < 8) : (⟨r.toNat, h⟩ : Fin 8) = 7 ↔ r = 7 :=
  Fin.ext_iff.trans toNat_eq_seven_iff

/-- The same register: it gets its own value back, and R7 its own, decremented and incremented. -/
theorem State.pushedPopped_regs_same (s : State) {r : Byte} (h : r.toNat < 8) :
    (s.pushedPopped (s.pushByte r h) ⟨r.toNat, h⟩).regs = s.regs := by
  refine Vector.ext fun k hk => ?_
  rw [State.getElem_pushedPopped_regs]
  simp only [fin_eq_seven_iff]
  by_cases hr : r = 7
  · have hv : spInc (s.pushByte r h) = s.regs[7] := by
      rw [State.pushByte, if_pos hr]
      exact spInc_spDec _
    have hr7 : r.toNat = 7 := toNat_eq_seven_iff.mpr hr
    split_ifs <;> simp_all
  · have hv : s.pushByte r h = s.regs[r.toNat] := if_neg hr
    split_ifs <;> simp_all

/-- A register below R7 gets what was pushed, and every other its own value. -/
theorem State.pushedPopped_regs_of_lt_seven (s : State) (v : Byte) {b : Byte} (hb : b.toNat < 7) :
    (s.pushedPopped v ⟨b.toNat, Nat.lt_succ_of_lt hb⟩).regs = s.regs.set b.toNat v := by
  refine Vector.ext fun k hk => ?_
  have hb7 : b ≠ 7 := fun h => absurd (toNat_eq_seven_iff.mpr h) hb.ne
  rw [State.getElem_pushedPopped_regs, Vector.getElem_set]
  simp only [fin_eq_seven_iff, hb7, if_false, eq_comm (a := k)]
  split_ifs
  · omega
  · subst k
    rfl
  all_goals rfl

/-- Settles O33: the writes of the two instructions, and the registers they leave. -/
theorem pushThenPopRestores : Obligations.PushThenPopRestores := by
  intro r s h hs hcode hm h2 h3
  obtain ⟨hpush, hpop, hpc⟩ := step_push_pop h h hs hcode hm h2 h3
  refine ⟨_, _, hpush, hpop, ?_, hpc, s.read_pushed_self _, fun a ha => s.read_pushed_other _ ha⟩
  conv_rhs => rw [← s.pushedPopped_regs_same h]
  rfl

/-- Settles O34: the writes of the two instructions, and the registers they leave. -/
theorem pushThenPopCopies : Obligations.PushThenPopCopies := by
  intro a b s ha hb hab hs hcode hm h2 h3
  obtain ⟨hpush, hpop, hpc⟩ := step_push_pop ha (Nat.lt_succ_of_lt hb) hs hcode hm h2 h3
  refine ⟨_, _, hpush, hpop, ?_, hpc, s.read_pushed_self _, fun a ha => s.read_pushed_other _ ha⟩
  conv_rhs => rw [← State.pushByte, ← s.pushedPopped_regs_of_lt_seven _ hb]
  rfl

/-- Settles O36: the next fetch finds the pushed byte in the cell after the PUSH, and the bytes
after that cell as they stood. -/
theorem pushedCodeRunsNext : Obligations.PushedCodeRunsNext := by
  intro r s h hs hcode haddr hm pushed
  have hpc := State.pushed_pc_toNat hcode pushed
  have hread : (s.pushed pushed).mem.read (s.pc.toNat + 2) = pushed := by
    rw [← haddr, State.read_pushed_self]
  have hpcread : (s.pushed pushed).mem.read (s.pushed pushed).pc.toNat = pushed := by
    rw [hpc, hread]
  refine ⟨s.pushed pushed, step_push h hs hcode hm, hs, hpc, hread, fun hop => ?_,
    fun i hhead htail => ?_, fun o k hop hk hko hend => ?_⟩
  · have hhalt := unassignedByteHalts.1 (s.pushed pushed) hs (by rw [hpc, ← haddr]; exact hm)
      (by rw [hpcread]; exact hop)
    rwa [hpcread] at hhalt
  · refine step_of_codeAt (s := s.pushed pushed) hs ?_
    rw [hpc, ← List.cons_head?_tail hhead, Pseudocode.codeAt_cons]
    refine ⟨⟨haddr ▸ hm, hread⟩, State.codeAt_pushed pushed htail fun k _ => ?_⟩
    omega
  · rw [operandFetchPastMemoryFails (s.pushed pushed) o k hs (by rw [hpcread]; exact hop) hk hko
      (by rw [hpc, hend]; rfl), hpc]

end Sys2Proof.Machine
end

section
/-! PROOFS. The ports (10_state.md R40, 20_memory.md R67, R68, 42_alu.md R134, 40_dispatch.md R108)
and the state after reset (10_state.md R42 to R47, 70_reset_and_hazards.md R181, R185). -/

namespace Sys2Proof.Machine

section Calls

variable (s : State)

theorem State.call_regRead_of_valid {i : Byte} (h : i.toNat < 8) :
    s.call (.regRead i) = (.byte (s.getReg ⟨i.toNat, h⟩), s) := by
  simp only [State.call, State.regReadPort, checkReg_valid i h]

theorem State.call_regRead_of_invalid {i : Byte} (h : 8 ≤ i.toNat) :
    s.call (.regRead i) = (.err (.invalidRegister i), s) := by
  simp only [State.call, State.regReadPort, checkReg_invalid i h]

theorem State.call_regWrite_of_valid {i : Byte} (h : i.toNat < 8) (v : Byte) :
    s.call (.regWrite i v) = (.ok, s.setReg ⟨i.toNat, h⟩ v) := by
  simp only [State.call, State.regWritePort, checkReg_valid i h]

theorem State.call_regWrite_of_invalid {i : Byte} (h : 8 ≤ i.toNat) (v : Byte) :
    s.call (.regWrite i v) = (.err (.invalidRegister i), s) := by
  simp only [State.call, State.regWritePort, checkReg_invalid i h]

theorem State.call_memRead_of_lt {a : Addr} (h : a.toNat < s.memSize) :
    s.call (.memRead a) = (.byte (s.mem.read a.toNat), s) := by
  simp only [State.call, State.memReadPort, State.memRead_of_lt h]

theorem State.call_memRead_of_le {a : Addr} (h : s.memSize ≤ a.toNat) :
    s.call (.memRead a) = (.err (.outOfBounds a), s) := by
  simp only [State.call, State.memReadPort, State.memRead_of_le h]

theorem State.call_memWrite_of_lt {a : Addr} (h : a.toNat < s.memSize) (v : Byte) :
    s.call (.memWrite a v) = (.ok, { s with mem := s.mem.write a.toNat v }) := by
  simp only [State.call, State.memWritePort, State.memWrite_of_lt h]

theorem State.call_memWrite_of_le {a : Addr} (h : s.memSize ≤ a.toNat) (v : Byte) :
    s.call (.memWrite a v) = (.err (.outOfBounds a), s) := by
  simp only [State.call, State.memWritePort, State.memWrite_of_le h]

theorem State.call_alu_of_ok {o : AluOp} {a b : Byte} {t : State}
    (h : aluOperation o a b s = .ok t) : s.call (.alu o a b) = (.ok, t) := by
  simp only [State.call, State.aluPort, h]

theorem State.call_alu_of_error {o : AluOp} {a b : Byte} {e : Fault}
    (h : aluOperation o a b s = .error e) : s.call (.alu o a b) = (.err e, s.takeError e) := by
  simp only [State.call, State.aluPort, h]

theorem State.call_load_of_fits {image : List Byte} (h : image.length ≤ s.memSize) :
    s.call (.load image) = (.ok, { s with mem := s.mem.loadFrom 0 image }) := if_pos h

theorem State.call_load_of_too_large {image : List Byte} (h : s.memSize < image.length) :
    s.call (.load image) = (.err (.outOfBounds (BitVec.ofNat 9 s.memSize)), s) :=
  if_neg (Nat.not_le.mpr h)

end Calls

theorem aluOperation_add_of_valid {a b : Byte} (ha : a.toNat < 8) (hb : b.toNat < 8) (s : State) :
    aluOperation .add a b s =
      .ok (s.setReg ⟨a.toNat, ha⟩ (aluAdd (s.getReg ⟨a.toNat, ha⟩) (s.getReg ⟨b.toNat, hb⟩))) := by
  simp only [aluOperation, checkReg_valid a ha, checkReg_valid b hb]
  rfl

theorem aluOperation_add_of_first_invalid {a : Byte} (ha : 8 ≤ a.toNat) (b : Byte) (s : State) :
    aluOperation .add a b s = .error (.invalidRegister a) := by
  simp only [aluOperation, checkReg_invalid a ha]
  rfl

theorem aluOperation_add_of_second_invalid {a b : Byte} (ha : a.toNat < 8) (hb : 8 ≤ b.toNat)
    (s : State) : aluOperation .add a b s = .error (.invalidRegister b) := by
  simp only [aluOperation, checkReg_valid a ha, checkReg_invalid b hb]
  rfl

/-- Settles O38: neither clause looks at STATUS. -/
theorem aluPortAddsOrFails : Obligations.AluPortAddsOrFails :=
  ⟨fun s _ _ ha hb => ⟨_, s.call_alu_of_ok (aluOperation_add_of_valid ha hb s), aluAdd_toNat _ _⟩,
    fun s _ _ _ => s.call_alu_of_error rfl⟩

/-- Settles O39: the check of each index, the first before the second. -/
theorem portsReportInvalidRegisters : Obligations.PortsReportInvalidRegisters := fun s _ hr =>
  ⟨s.call_regRead_of_invalid hr, s.call_regWrite_of_invalid hr,
    fun b => s.call_alu_of_error (aluOperation_add_of_first_invalid hr b s),
    fun _ ha =>
      s.call_alu_of_error (aluOperation_add_of_second_invalid (Nat.lt_succ_of_le ha) hr s)⟩

theorem Memory.read_loadFrom_zero_of_lt (m : Memory) {image : List Byte} {a : Nat}
    (h : a < image.length) : (m.loadFrom 0 image).read a = image[a] := by
  rw [Memory.read_loadFrom, if_pos ⟨Nat.zero_le a, by omega⟩]
  exact List.getD_eq_getElem _ _ h

theorem Memory.read_loadFrom_zero_of_le (m : Memory) {image : List Byte} {a : Nat}
    (h : image.length ≤ a) : (m.loadFrom 0 image).read a = m.read a := by
  rw [Memory.read_loadFrom, if_neg (by omega)]

/-- Settles O40, by reading the loaded memory inside the image and beyond it. -/
theorem loadCopiesOrRefuses : Obligations.LoadCopiesOrRefuses := fun s _ =>
  ⟨fun hfit => ⟨_, s.call_load_of_fits hfit, fun _ h => Memory.read_loadFrom_zero_of_lt _ h,
    fun _ h => Memory.read_loadFrom_zero_of_le _ h⟩, fun hlarge => s.call_load_of_too_large hlarge⟩

/-- What a read replies depends on the size and the cell alone. -/
theorem State.call_memRead_congr {s t : State} {a : Addr} (hsize : t.memSize = s.memSize)
    (hread : t.mem.read a.toNat = s.mem.read a.toNat) :
    (t.call (.memRead a)).1 = (s.call (.memRead a)).1 := by
  rcases lt_or_ge a.toNat s.memSize with ha | ha
  · rw [s.call_memRead_of_lt ha, t.call_memRead_of_lt (hsize ▸ ha), hread]
  · rw [s.call_memRead_of_le ha, t.call_memRead_of_le (hsize ▸ ha)]

/-- Settles O41, by the reads after the write of the same cell and of another. -/
theorem memoryPortsReadWhatWasWritten : Obligations.MemoryPortsReadWhatWasWritten := by
  refine fun s a v => ⟨fun ha => ⟨s.call_memRead_of_le ha, s.call_memWrite_of_le ha v⟩, fun ha =>
    ⟨s.call_memRead_of_lt ha, { s with mem := s.mem.write a.toNat v },
      s.call_memWrite_of_lt ha v, rfl, ?_, fun b hb => State.call_memRead_congr rfl ?_⟩⟩
  · rw [State.call_memRead_of_lt { s with mem := s.mem.write a.toNat v } ha, Memory.read_write_self]
  · exact Memory.read_write_other _ _ _ _ (mt BitVec.eq_of_toNat_eq hb)

/-- A write is seen by no read of another register, one that exists or not. -/
theorem State.call_regRead_setReg_other (s : State) {i j : Byte} (hi : i.toNat < 8) (h : j ≠ i)
    (v : Byte) : ((s.setReg ⟨i.toNat, hi⟩ v).call (.regRead j)).1 = (s.call (.regRead j)).1 := by
  rcases lt_or_ge j.toNat 8 with hj | hj
  · rw [State.call_regRead_of_valid _ hj, State.call_regRead_of_valid _ hj,
      State.getReg_setReg_other]
    exact Fin.ne_of_val_ne (mt BitVec.eq_of_toNat_eq h)
  · rw [State.call_regRead_of_invalid _ hj, State.call_regRead_of_invalid _ hj]

/-- Settles O42, by the reads after the write of the same register and of another. -/
theorem registerPortsReadWhatWasWritten : Obligations.RegisterPortsReadWhatWasWritten := by
  refine fun s i v hi => ⟨_, s.call_regWrite_of_valid hi v, rfl, ?_,
    fun j hj => s.call_regRead_setReg_other hi hj v⟩
  rw [State.call_regRead_of_valid _ hi, State.getReg_setReg_self]

/-- Settles O43: the three bytes are inspected at PC, PC + 1 and PC + 2. -/
theorem traceShowsWithoutSideEffect : Obligations.TraceShowsWithoutSideEffect := by
  refine fun s => ⟨⟨_, rfl, fun k => ?_⟩, rfl, rfl⟩
  match k with
  | 0 => rfl
  | 1 => rfl
  | 2 => rfl

theorem State.call_reset (s : State) : s.call .reset = (.done, State.resetAt s.lastAddr) := rfl

/-- Settles O46: the port gives the reset state of the core's own size. -/
theorem resetStartsAtZeroRunning : Obligations.ResetStartsAtZeroRunning := by
  intro s
  rw [State.call_reset]
  exact ⟨rfl, rfl, rfl, rfl, rfl, rfl, rfl⟩

theorem State.calls_reset_load {s : State} {image : List Byte} (h : image.length ≤ s.memSize) :
    s.calls [.reset, .load image] =
      { State.resetAt s.lastAddr with mem := Memory.loadFrom [] 0 image } :=
  congrArg Prod.snd ((State.resetAt s.lastAddr).call_load_of_fits h)

/-- Settles O47: the image is copied into memory that lists no cell. -/
theorem cleanLaunchState : Obligations.CleanLaunchState := by
  intro s image h
  simp only [State.calls_reset_load h]
  exact ⟨State.resetAt_getReg s.lastAddr, rfl, rfl, rfl, rfl, rfl,
    fun a ha => Memory.read_loadFrom_zero_of_lt _ ha,
    fun a ha => Memory.read_loadFrom_zero_of_le _ ha⟩

/-- Settles O48: the cell at PC is one that nothing has written, so its byte is unassigned. -/
theorem bootWithoutLoadHalts : Obligations.BootWithoutLoadHalts := fun n =>
  unassignedByteHalts.1 (State.resetAt n) rfl (Nat.succ_pos n) (unassignedByteHalts.2 n 0)

end Sys2Proof.Machine
end

section
/-! PROOFS. The canonical form of memory is canonical (20_memory.md section 1): it lists the cells
that do not read 0, in one order. -/

namespace Sys2Proof.Machine

theorem Memory.read_of_not_listed {m : Memory} {a : Nat} (h : ∀ c ∈ m, c.1 ≠ a) :
    m.read a = Memory.unlisted := by
  induction m with
  | nil => rfl
  | cons c m ih =>
    rw [Memory.read_cons, if_neg (h c List.mem_cons_self).symm]
    exact ih fun d hd => h d (List.mem_cons_of_mem _ hd)

theorem Memory.read_of_mem {m : Memory} (hm : m.Pairwise fun c d => c.1 < d.1) {c : Host.Cell}
    (hc : c ∈ m) : m.read c.1 = c.2 := by
  induction m with
  | nil => simp at hc
  | cons d m ih =>
    obtain ⟨hd, hm⟩ := List.pairwise_cons.mp hm
    rw [Memory.read_cons]
    rcases List.mem_cons.mp hc with rfl | hc
    · exact if_pos rfl
    · rw [if_neg (hd c hc).ne', ih hm hc]

/-- Canonical memory lists just the cells that do not read as an unlisted one does. -/
theorem Memory.mem_iff_read {m : Memory} (hm : m.wf = true) (c : Host.Cell) :
    c ∈ m ↔ m.read c.1 = c.2 ∧ c.2 ≠ Memory.unlisted := by
  obtain ⟨hsorted, hlisted⟩ := m.wf_iff.mp hm
  refine ⟨fun hc => ⟨Memory.read_of_mem hsorted hc, hlisted c hc⟩, fun ⟨hread, hne⟩ => ?_⟩
  by_contra hc
  refine hne (hread ▸ Memory.read_of_not_listed fun d hd hdc => hc ?_)
  have hval : d.2 = c.2 := by rw [← Memory.read_of_mem hsorted hd, hdc, hread]
  exact Prod.ext hdc hval ▸ hd

/-- Settles O55: two lists of the same cells, both in rising order, are one list. -/
theorem canonicalMemoriesThatReadAlikeAreEqual :
    Obligations.CanonicalMemoriesThatReadAlikeAreEqual := by
  intro m n hm hn hread
  obtain ⟨hmsorted, -⟩ := m.wf_iff.mp hm
  obtain ⟨hnsorted, -⟩ := n.wf_iff.mp hn
  have nodup {l : Memory} (hl : l.Pairwise fun c d => c.1 < d.1) : l.Nodup :=
    hl.imp fun h heq => absurd (congrArg Prod.fst heq) h.ne
  have hperm : m.Perm n := (List.perm_ext_iff_of_nodup (nodup hmsorted) (nodup hnsorted)).mpr
    fun c => by rw [Memory.mem_iff_read hm, Memory.mem_iff_read hn, hread]
  exact hperm.eq_of_pairwise (fun c d _ _ hcd hdc => absurd hcd hdc.asymm) hmsorted hnsorted

end Sys2Proof.Machine
end

section
/-! PROOFS. The program image text (30_encoding.md R86). -/

namespace Sys2Proof.Machine

/-- A binary digit is neither white space nor the start of a comment. -/
theorem lineToken_of_digits {line : List Char} (h : ∀ c ∈ line, c = '0' ∨ c = '1') :
    lineToken line = line := by
  have hspace (l : List Char) (hl : ∀ c ∈ l, c = '0' ∨ c = '1') :
      l.dropWhile Char.isWhitespace = l := by
    cases l with
    | nil => rfl
    | cons c l => rcases hl c List.mem_cons_self with rfl | rfl <;> rfl
  have hcode : line.takeWhile (· ≠ '#') = line := by
    refine List.takeWhile_eq_self_iff.mpr fun c hc => ?_
    rcases h c hc with rfl | rfl <;> rfl
  simp only [lineToken, hcode, hspace line h]
  rw [hspace line.reverse fun c hc => h c (List.mem_reverse.mp hc), List.reverse_reverse]

theorem binaryLine_digits (b : Byte) : ∀ c ∈ Pseudocode.binaryLine b, c = '0' ∨ c = '1' := by
  intro c hc
  obtain ⟨k, -, rfl⟩ := List.mem_map.mp hc
  split
  · exact .inr rfl
  · exact .inl rfl

theorem binaryLine_ne_nil (b : Byte) : Pseudocode.binaryLine b ≠ [] := by
  simp [Pseudocode.binaryLine]

theorem binaryValue_append_digit (token : List Char) (d : Bool) :
    binaryValue (token ++ [if d then '1' else '0']) = 2 * binaryValue token + d.toNat := by
  cases d <;> simp [binaryValue]

/-- The first `k` digits of a byte's line are the byte without its lowest `8 - k` bits. -/
theorem binaryValue_leading_digits (b : Byte) {k : Nat} (hk : k ≤ 8) :
    binaryValue ((List.range k).map fun j => if b.getMsbD j then '1' else '0') =
      b.toNat / 2 ^ (8 - k) := by
  induction k with
  | zero => exact (Nat.div_eq_of_lt b.isLt).symm
  | succ k ih =>
    have hexp : 8 - k = (8 - (k + 1)) + 1 := by omega
    have hdigit : (b.getMsbD k).toNat = b.toNat / 2 ^ (8 - (k + 1)) % 2 := by
      rw [BitVec.getMsbD_eq_getLsbD, decide_eq_true (by omega : k < 8), Bool.true_and,
        ← BitVec.testBit_toNat, Nat.toNat_testBit, Nat.sub_right_comm, Nat.sub_sub]
    rw [List.range_succ, List.map_append, List.map_singleton, binaryValue_append_digit,
      ih (by omega), hexp, Nat.pow_succ, ← Nat.div_div_eq_div_mul, hdigit, Nat.div_add_mod]

theorem binaryValue_binaryLine (b : Byte) : binaryValue (Pseudocode.binaryLine b) = b.toNat :=
  (binaryValue_leading_digits b le_rfl).trans (Nat.div_one _)

theorem tokenByte_binaryLine (b : Byte) : tokenByte (Pseudocode.binaryLine b) = .ok b := by
  have hdigits : (Pseudocode.binaryLine b).all (fun c => c = '0' ∨ c = '1') = true :=
    List.all_eq_true.mpr fun c hc => decide_eq_true (binaryLine_digits b c hc)
  rw [tokenByte, if_pos hdigits, binaryValue_binaryLine]
  simp [b.isLt]

theorem imageOfLines_cons_of_byte {line : List Char} {lines : List (List Char)} {b : Byte}
    {bs : List Byte} (hne : lineToken line ≠ []) (hb : tokenByte (lineToken line) = .ok b)
    (hrest : imageOfLines lines = .ok bs) : imageOfLines (line :: lines) = .ok (b :: bs) := by
  rw [imageOfLines]
  split
  · exact absurd ‹_› hne
  · simp only [hb, hrest]

/-- Settles O56: each line is its own token, and the token's value is the byte's. -/
theorem imageLinesGiveTheirBytes : Obligations.ImageLinesGiveTheirBytes := by
  intro bytes
  induction bytes with
  | nil => rfl
  | cons b bs ih =>
    have htoken : lineToken (Pseudocode.binaryLine b) = Pseudocode.binaryLine b :=
      lineToken_of_digits (binaryLine_digits b)
    refine imageOfLines_cons_of_byte ?_ ?_ ih
    · rw [htoken]; exact binaryLine_ne_nil b
    · rw [htoken]; exact tokenByte_binaryLine b

end Sys2Proof.Machine
end
